-- ==== Sys2Proof/Word.lean ====
section
/-! DEFINITION. The words of the SM3 compression engine (spec/00_scope.md R7, R9) and the eight-word record that both the
hash state register file V (spec/10_state.md R12) and the working registers A..H (R24) have the shape of. -/

namespace Sys2Proof

/-- A 32-bit unsigned word, bit 0 the least significant (R9). -/
abbrev Word := BitVec 32

/-- A byte of a message, a payload, a block or a digest. -/
abbrev Byte := BitVec 8

/-- The width of the bit-length counter L (R16). -/
abbrev Length := BitVec 64

/-- Eight words named A..H, with V[0] = A, ..., V[7] = H (R12). -/
structure HashState where
  a : Word
  b : Word
  c : Word
  d : Word
  e : Word
  f : Word
  g : Word
  h : Word
  deriving DecidableEq, Repr

end Sys2Proof
end

