-- ==== Sys2Proof/Machine/Operands.lean ====
section
/-! DEFINITION. Operand forms: the header's three fields, the length of a command, and the packing of bytes into words
(spec/30_encoding.md R45, R46, R47; spec/20_memory.md R30 to R33). There are no register operands; LEN is the only immediate. -/

namespace Sys2Proof.Machine

/-- `be32(b0, b1, b2, b3)`: big-endian, the first byte most significant (spec/00_scope.md R10). -/
def be32 (b0 b1 b2 b3 : Byte) : Word :=
  b0 ++ b1 ++ b2 ++ b3

/-- `be32bytes(w)`: four bytes, most significant first (R10). -/
def be32bytes (w : Word) : List Byte :=
  [w.extractLsb' 24 8, w.extractLsb' 16 8, w.extractLsb' 8 8, w.extractLsb' 0 8]

/-- `be64bytes(x)`: eight bytes, most significant first (R10, R31). -/
def be64bytes (x : Length) : List Byte :=
  [x.extractLsb' 56 8, x.extractLsb' 48 8, x.extractLsb' 40 8, x.extractLsb' 32 8,
   x.extractLsb' 24 8, x.extractLsb' 16 8, x.extractLsb' 8 8, x.extractLsb' 0 8]

/-- Field OPC, bits 31:24 of a header (R45). -/
def headerOpc (h : Word) : Byte := h.extractLsb' 24 8

/-- Field RSVD, bits 23:16 of a header (R45). -/
def headerRsvd (h : Word) : Byte := h.extractLsb' 16 8

/-- Field LEN, bits 15:0 of a header, as the unsigned byte count (R45). -/
def headerLen (h : Word) : Nat := (h.extractLsb' 0 16).toNat

/-- A header with its three fields (R45). -/
def header (opc rsvd : Byte) (len : BitVec 16) : Word := opc ++ rsvd ++ len

/-- The number of payload words a header announces, whatever its RSVD field holds (R46). -/
def payloadWords (h : Word) : Nat :=
  if headerOpc h = 0x02 ∨ headerOpc h = 0x04 then (headerLen h + 3) / 4 else 0

/-- The first `n` bytes that payload words carry, each word most significant byte first; the lanes after them are
ignored (R47). -/
def payloadBytes (n : Nat) (ps : List Word) : List Byte :=
  (ps.flatMap be32bytes).take n

/-- Bytes packed into payload words, an unused lane written as 0 (R47, R56). -/
def packWords : List Byte → List Word
  | [] => []
  | [b0] => [be32 b0 0 0 0]
  | [b0, b1] => [be32 b0 b1 0 0]
  | [b0, b1, b2] => [be32 b0 b1 b2 0]
  | b0 :: b1 :: b2 :: b3 :: bs => be32 b0 b1 b2 b3 :: packWords bs

end Sys2Proof.Machine
end

