-- ==== Sys2Proof/Config.lean ====
section
/-! DEFINITION. The fixed parameters of the hardware (spec/00_scope.md R7) and the one it leaves open (R8). None of the
fixed ones is configurable: they are plain constants. -/

namespace Sys2Proof

/-- BLOCK_BYTES (R7, R88). -/
def Config.blockBytes : Nat := 64

/-- DIGEST_BYTES (R7, R88). -/
def Config.digestBytes : Nat := 32

/-- ROUNDS of one compression (R7). -/
def Config.rounds : Nat := 64

/-- W_WORDS, the expanded words of one block (R7). -/
def Config.wWords : Nat := 68

/-- MAX_LEN, the largest payload of one WRITE or SUM in bytes (R7). -/
def Config.maxLen : Nat := 65535

/-- The initialization vector (spec/10_state.md R14). -/
def Config.iv : HashState where
  a := 0x7380166f
  b := 0x4914b2b9
  c := 0x172442d7
  d := 0xda8a0600
  e := 0xa96f30bc
  f := 0x163138aa
  g := 0xe38dee4d
  h := 0xb0fb0e4e

/-- LATENCY (R8): the cycles a command takes, left open by the spec; the model is untimed and nothing reads it
(log entry 9). -/
opaque Config.latency : Nat

end Sys2Proof
end

