-- ==== Sys2Proof/Syntax.lean ====
section
/-! DEFINITION. The commands of spec/opcode_table.json (spec/30_encoding.md R53), one constructor per row. A command that the
opcode map does not give (illegal or malformed, R55) is a result of the decoder and no constructor here. -/

namespace Sys2Proof

/-- A well-formed command as it is performed, after its payload has been assembled (R54). -/
inductive Instr where
  /-- RESET, OPC 0x01 (R80). -/
  | reset
  /-- WRITE, OPC 0x02, with its LEN payload bytes (R81). -/
  | write (bs : List Byte)
  /-- FINALIZE, OPC 0x03 (R82). -/
  | finalize
  /-- SUM, OPC 0x04, with its LEN payload bytes (R83). -/
  | sum (bs : List Byte)
  /-- STATUS, OPC 0x05 (R84). -/
  | status
  deriving DecidableEq, Repr

end Sys2Proof
end

