-- ==== Sys2Proof/WellFormed.lean ====
section
/-! DEFINITION. Which commands have an encoding: LEN is a 16-bit field, so a payload has at most MAX_LEN = 65535 bytes
(spec/30_encoding.md R45, spec/00_scope.md R7). -/

namespace Sys2Proof

/-- The payload bytes of a command; a format H command has none (R45). -/
def Instr.payload : Instr → List Byte
  | .reset => []
  | .write bs => bs
  | .finalize => []
  | .sum bs => bs
  | .status => []

/-- A command that a header and its payload words can carry. -/
def Instr.wellFormed (i : Instr) : Bool :=
  decide (i.payload.length ≤ Config.maxLen)

end Sys2Proof
end

