-- ==== Sys2Proof/Decode.lean ====
section
/-! DEFINITION. The decoder of command words, total on every word sequence (spec/30_encoding.md R54), and after it the
encoder, from the same opcode map (R53, R56). -/

namespace Sys2Proof

open Machine

def opcReset : Byte := 0x01
def opcWrite : Byte := 0x02
def opcFinalize : Byte := 0x03
def opcSum : Byte := 0x04
def opcStatus : Byte := 0x05

/-- What the decoder makes of a whole command: R54's `cmd`. -/
inductive Decoded where
  /-- A well-formed header and its payload. -/
  | command (i : Instr)
  /-- An OPC of the map with RSVD not 0, or with LEN not 0 on a format H opcode (R48). -/
  | malformed (opc : Byte)
  /-- An OPC outside the map (R55). -/
  | illegal (opc : Byte)
  deriving DecidableEq, Repr

/-- The command that a header and the payload bytes it announced stand for (R54). -/
def decodeCommand (h : Word) (bs : List Byte) : Decoded :=
  if headerOpc h = opcWrite ∨ headerOpc h = opcSum then
    if headerRsvd h ≠ 0 then .malformed (headerOpc h)
    else if headerOpc h = opcWrite then .command (.write bs)
    else .command (.sum bs)
  else if headerOpc h = opcReset ∨ headerOpc h = opcFinalize ∨ headerOpc h = opcStatus then
    if headerRsvd h ≠ 0 ∨ headerLen h ≠ 0 then .malformed (headerOpc h)
    else if headerOpc h = opcReset then .command .reset
    else if headerOpc h = opcFinalize then .command .finalize
    else .command .status
  else .illegal (headerOpc h)

/-- The OPC field of the header, which every response echoes (R49). -/
def Decoded.opc : Decoded → Byte
  | .command .reset => opcReset
  | .command (.write _) => opcWrite
  | .command .finalize => opcFinalize
  | .command (.sum _) => opcSum
  | .command .status => opcStatus
  | .malformed opc => opc
  | .illegal opc => opc

/-- One command off the front of a word sequence, with the words after it; `none` when words it announces are still
to come (R46, R54). -/
def decode : List Word → Option (Decoded × List Word)
  | [] => none
  | h :: ws =>
    if ws.length < payloadWords h then none
    else some (decodeCommand h (payloadBytes (headerLen h) (ws.take (payloadWords h))), ws.drop (payloadWords h))

/-- The OPC field of a command (R53). -/
def Instr.opc : Instr → Byte
  | .reset => opcReset
  | .write _ => opcWrite
  | .finalize => opcFinalize
  | .sum _ => opcSum
  | .status => opcStatus

/-- The words of a well-formed command: the header `opc * 2^24 + LEN`, then the payload words (R56). -/
def encode (i : Instr) : List Word :=
  header i.opc 0 (BitVec.ofNat 16 i.payload.length) :: packWords i.payload

/-- Bits `32 * k + 31 .. 32 * k` of a number, the `k`-th word of an instruction's bits. -/
def wordOfBits (w k : Nat) : Word := BitVec.ofNat 32 (w >>> (32 * k))

/-- The words of an instruction whose bits are `w`, `nbits` of them given and every bit above them 0: the header, then as
many payload words as it announces. The command port moves whole words, so no byte order enters (R34). -/
def tableWords (nbits w : Nat) : List Word :=
  let bits := w % 2 ^ nbits
  let h := wordOfBits bits 0
  h :: (List.range (payloadWords h)).map fun k => wordOfBits bits (k + 1)

/-- The instruction that the decoder reads from an instruction's bits. -/
def decodeTableWord (nbits w : Nat) : Option Instr :=
  match decode (tableWords nbits w) with
  | some (.command i, _) => some i
  | some (.malformed _, _) => none
  | some (.illegal _, _) => none
  | none => none

end Sys2Proof
end

