-- ==== Sys2Proof/Machine/Compression.lean ====
section
/-! DEFINITION. The compression engine (spec/40_compression.md): primitives, message expansion, the round function and CF.
No operation here can fail and none reads anything but its arguments (R70, R72). -/

namespace Sys2Proof.Machine

/-- 32-bit circular left rotation by `n mod 32`; by 0 it returns its operand (R58). -/
def rotl (x : Word) (n : Nat) : Word :=
  let r := n % 32
  if r = 0 then x else (x <<< r) ||| (x >>> (32 - r))

/-- The permutation P0 (R60). -/
def p0 (x : Word) : Word := x ^^^ rotl x 9 ^^^ rotl x 17

/-- The permutation P1 (R61). -/
def p1 (x : Word) : Word := x ^^^ rotl x 15 ^^^ rotl x 23

/-- The round constant T[j] (R62). -/
def roundConstant (j : Nat) : Word :=
  if j ≤ 15 then 0x79cc4519 else 0x7a879d8a

/-- The rotated round constant TR[j] = rotl(T[j], j) (R62). -/
def rotatedConstant (j : Nat) : Word := rotl (roundConstant j) j

/-- The Boolean function FF of round j: parity, then bitwise majority (R63). -/
def ff (j : Nat) (x y z : Word) : Word :=
  if j ≤ 15 then x ^^^ y ^^^ z else (x &&& y) ||| (x &&& z) ||| (y &&& z)

/-- The Boolean function GG of round j: parity, then bitwise choose (R64). -/
def gg (j : Nat) (x y z : Word) : Word :=
  if j ≤ 15 then x ^^^ y ^^^ z else (x &&& y) ||| (~~~x &&& z)

/-- The words of a block, big-endian: W[0..15] (R30, R65). -/
def blockWords : List Byte → List Word
  | b0 :: b1 :: b2 :: b3 :: bs => be32 b0 b1 b2 b3 :: blockWords bs
  | _ => []

/-- The next expanded word W[j] from W[0..j-1], j being their number (R66). -/
def nextExpanded (ws : List Word) : Word :=
  let w (back : Nat) : Word := ws.getD (ws.length - back) 0
  p1 (w 16 ^^^ w 9 ^^^ rotl (w 3) 15) ^^^ rotl (w 13) 7 ^^^ w 6

/-- `n` more expanded words, in increasing j (R66). -/
def expandMore : Nat → List Word → List Word
  | 0, ws => ws
  | n + 1, ws => expandMore n (ws ++ [nextExpanded ws])

/-- W[0..67] of a block (R65, R66). -/
def expand (block : List Byte) : List Word :=
  expandMore (Config.wWords - 16) (blockWords block)

/-- Expanded word W[j]. -/
def wordW (ws : List Word) (j : Nat) : Word := ws.getD j 0

/-- Expanded word W'[j] = W[j] xor W[j+4] (R67). -/
def wordW' (ws : List Word) (j : Nat) : Word := wordW ws j ^^^ wordW ws (j + 4)

/-- Round j on the working registers, from W[j] and W'[j]: one simultaneous assignment (R69). -/
def compressRound (j : Nat) (w w' : Word) (r : HashState) : HashState :=
  let ss1 := rotl (rotl r.a 12 + r.e + rotatedConstant j) 7
  let ss2 := ss1 ^^^ rotl r.a 12
  let tt1 := ff j r.a r.b r.c + r.d + ss2 + w'
  let tt2 := gg j r.e r.f r.g + r.h + ss1 + w
  { a := tt1, b := r.a, c := rotl r.b 9, d := r.c, e := p0 tt2, f := r.e, g := rotl r.f 19, h := r.g }

/-- `n` rounds from round j on (R69). -/
def compressRounds (ws : List Word) : Nat → Nat → HashState → HashState
  | 0, _, r => r
  | n + 1, j, r => compressRounds ws n (j + 1) (compressRound j (wordW ws j) (wordW' ws j) r)

/-- Word-wise exclusive or of two eight-word states. -/
def xorState (x y : HashState) : HashState where
  a := x.a ^^^ y.a
  b := x.b ^^^ y.b
  c := x.c ^^^ y.c
  d := x.d ^^^ y.d
  e := x.e ^^^ y.e
  f := x.f ^^^ y.f
  g := x.g ^^^ y.g
  h := x.h ^^^ y.h

/-- CF, the compression function: 64 rounds on working registers loaded from V, then the feed-forward (R68, R70). -/
def cf (v : HashState) (block : List Byte) : HashState :=
  xorState v (compressRounds (expand block) Config.rounds 0 v)

end Sys2Proof.Machine
end

