-- ==== Sys2Proof/Machine/State.lean ====
section
/-! DEFINITION. The state of the machine: everything spec/10_state.md gives it, the pins of spec/70_reset_and_hazards.md R103
that the host drives, and the words the host has received. Plain data. -/

namespace Sys2Proof.Machine

/-- The control state FSM (R19). The encoding 3 is never held, so it is no value here. -/
inductive Fsm where
  | accepting
  | finalized
  | fault
  deriving DecidableEq, Repr

/-- The command-port decoder DEC (R23). -/
inductive Decoder where
  /-- IDLE: the next command word is a header. -/
  | idle
  /-- COLLECTING: the header of the command being received, the number of payload words still to come, and the payload
  bytes received so far. -/
  | collecting (header : Word) (wordsToCome : Nat) (received : List Byte)
  deriving DecidableEq, Repr

/-- Response codes (spec/30_encoding.md R50). -/
inductive ResponseCode where
  | ok
  | illegal
  | finalized
  | fault
  deriving DecidableEq, Repr

structure State where
  /-- V[0..7], the hash state register file (R12). -/
  v : HashState
  /-- L, the bit-length counter (R16). -/
  len : Length
  /-- BUF, the pending buffer; BUFCNT is its length (R17). -/
  buf : List Byte
  /-- FSM, the control state (R19). -/
  fsm : Fsm
  /-- DEC, the command-port decoder (R23). -/
  dec : Decoder
  /-- The words of the response not yet accepted by the host, the next to move first (R23). -/
  rsp : List Word
  /-- Port rst_n, driven by the host (R103): false while hardware reset is asserted. -/
  rstN : Bool
  /-- Port rsp_ready, driven by the host (R103). -/
  rspReady : Bool
  /-- The command words the host offers, the one on cmd_data first; cmd_valid is 'not empty' (R103). -/
  cmdIn : List Word
  /-- The response words the host has accepted, oldest first: the observation of a run (R117). A hardware reset takes none
of them back (log entry 19, DESIGN CHOICE). The model's own field. -/
  rspOut : List Word
  deriving DecidableEq, Repr

/-- Why a step does not happen. Both are the spec's own 'stuck' (spec/93_implementation_defined.md U12): the block has no
step until the host acts. Both are safe: nothing is claimed of what follows. -/
inductive Fault where
  /-- Raised by `edge` when a command's payload words have stopped arriving (R110). Safe. -/
  | payloadAwaited
  /-- Raised by `edge` when a response word is on offer and the host does not take it (R109). Safe. -/
  | responseAwaited
  deriving DecidableEq, Repr

/-- What is given no meaning. -/
inductive Refusal where
  /-- An instruction without a meaning yet, raised by `exec`; no arm of it does so any more. Safe. -/
  | notModelled (mnemonic : String)
  /-- Raised by `hostAct` when the host takes back a command word before it has moved: the port protocol is broken and the
  run has no meaning (R103, R117, U13). Safe. -/
  | portProtocol
  deriving DecidableEq, Repr

/-- Right after hardware reset (R27, R104). The last four fields belong to the host: rst_n is back at 1, the host takes
response words, and it has offered and received nothing (log entry 2, DESIGN CHOICE). -/
def State.reset : State where
  v := Config.iv
  len := 0
  buf := []
  fsm := .accepting
  dec := .idle
  rsp := []
  rstN := true
  rspReady := true
  cmdIn := []
  rspOut := []

end Sys2Proof.Machine
end

