-- ==== Sys2Proof/Machine/Flags.lean ====
section
/-! DEFINITION. The codes software reads: the STATUS register and the status word of a response. The hardware has no
condition codes or flags (spec/10_state.md R22), so no instruction computes one. -/

namespace Sys2Proof.Machine

/-- The encoding of FSM in field STATE (R19, R20). -/
def fsmCode : Fsm → BitVec 2
  | .accepting => 0
  | .finalized => 1
  | .fault => 2

/-- BUFCNT, the 6-bit count of the pending buffer (R17). -/
def bufCount (buf : List Byte) : BitVec 6 := BitVec.ofNat 6 buf.length

/-- The STATUS register: STATE in bits 1:0, BUFCNT in bits 13:8, every other bit 0 (R20). -/
def statusRegister (s : State) : Word :=
  (0 : BitVec 18) ++ bufCount s.buf ++ (0 : BitVec 6) ++ fsmCode s.fsm

/-- The encoding of a response code in field RC (spec/30_encoding.md R50). -/
def codeOf : ResponseCode → Byte
  | .ok => 0x00
  | .illegal => 0x01
  | .finalized => 0x02
  | .fault => 0x03

/-- The status word of a response: OPC in bits 31:24, RC in bits 7:0, every other bit 0 (R49). -/
def statusWord (opc : Byte) (rc : ResponseCode) : Word :=
  opc ++ (0 : BitVec 16) ++ codeOf rc

end Sys2Proof.Machine
end

