-- ==== Sys2Proof/Machine/Ops.lean ====
section
/-! DEFINITION. The operations every command shares: answering (spec/30_encoding.md R49), entering FAULT
(spec/60_exceptions.md R93), hardware reset (spec/70_reset_and_hazards.md R104), and the words of V. There is no memory
(spec/20_memory.md R28), so no operation here reads or writes one. -/

namespace Sys2Proof.Machine

/-- `V[0], ..., V[7]` in that order (spec/10_state.md R12, spec/30_encoding.md R52). -/
def stateWords (v : HashState) : List Word :=
  [v.a, v.b, v.c, v.d, v.e, v.f, v.g, v.h]

/-- `respond(rc, data)`: the status word and then the data words are handed to the response port (R49, R23). -/
def respond (opc : Byte) (rc : ResponseCode) (data : List Word) (s : State) : State :=
  { s with rsp := statusWord opc rc :: data }

/-- A refusal: a response without data words, and no other change (R51, R89). -/
def refuse (opc : Byte) (rc : ResponseCode) (s : State) : State :=
  respond opc rc [] s

/-- `fault()`: the hardware's one exception. FSM becomes FAULT and the command is answered FAULT; no state is saved and
there is no vector (R89, R93). -/
def takeFault (opc : Byte) (s : State) : State :=
  refuse opc .fault { s with fsm := .fault }

/-- Hardware reset, the only way out of FAULT (R94, R104): every piece of the hardware's own state takes its reset value and
a command in progress is abandoned (R105). What the host drives and has received is the host's. -/
def hardReset (s : State) : State :=
  { s with v := Config.iv, len := 0, buf := [], fsm := .accepting, dec := .idle, rsp := [] }

end Sys2Proof.Machine
end

