-- ==== Sys2Proof/Machine/Streaming.lean ====
section
/-! DEFINITION. The block streamer (spec/41_streaming.md section 1): absorb, pad, serialize, finish; and SM3 of a whole
message as R85 gives it. -/

namespace Sys2Proof.Machine

/-- The loop of `absorb`, at most `n` times: while a whole block is buffered, compress it and drop it (R74). -/
def absorbLoop : Nat → HashState → List Byte → HashState × List Byte
  | 0, v, buf => (v, buf)
  | n + 1, v, buf =>
    if buf.length < Config.blockBytes then (v, buf)
    else absorbLoop n (cf v (buf.take Config.blockBytes)) (buf.drop Config.blockBytes)

/-- V and BUF after `absorb(bs)` (R74): one turn of the loop for each whole block. -/
def absorbed (v : HashState) (buf bs : List Byte) : HashState × List Byte :=
  absorbLoop ((buf ++ bs).length / Config.blockBytes) v (buf ++ bs)

/-- The bit-length counter after `n` more bytes, modulo 2^64 (R73). -/
def countBits (len : Length) (n : Nat) : Length :=
  len + BitVec.ofNat 64 (8 * n)

/-- An accepted payload: L grows and the bytes are absorbed (R73, R74). -/
def absorb (bs : List Byte) (s : State) : State :=
  { s with
    v := (absorbed s.v s.buf bs).1
    buf := (absorbed s.v s.buf bs).2
    len := countBits s.len bs.length }

/-- The number of zero bytes of the padding, `(55 - n) mod 64` (R76). -/
def padZeros (n : Nat) : Nat := ((55 - (n : Int)) % 64).toNat

/-- `pad(BUF, L)` (R76): it changes no state. -/
def pad (buf : List Byte) (len : Length) : List Byte :=
  buf ++ [0x80] ++ List.replicate (padZeros buf.length) 0 ++ be64bytes len

/-- V after the first `n` blocks of a byte sequence (R79). -/
def compressBlocks : Nat → HashState → List Byte → HashState
  | 0, v, _ => v
  | n + 1, v, p =>
    compressBlocks n (cf v (p.take Config.blockBytes)) (p.drop Config.blockBytes)

/-- V after compressing every block of a byte sequence. -/
def compressAll (v : HashState) (p : List Byte) : HashState :=
  compressBlocks (p.length / Config.blockBytes) v p

/-- `serialize(V)`: the 32 digest bytes (R32, R78). -/
def serialize (v : HashState) : List Byte :=
  (stateWords v).flatMap be32bytes

/-- `finish()` (R79): the padding invariant is checked, the padding blocks are compressed, BUF is emptied, and the digest
words are the response. A broken invariant takes the fault instead (R93); `pad` never breaks it (R77). -/
def finish (opc : Byte) (s : State) : State :=
  if (pad s.buf s.len).length % Config.blockBytes ≠ 0 then takeFault opc s
  else
    respond opc .ok (stateWords (compressAll s.v (pad s.buf s.len)))
      { s with v := compressAll s.v (pad s.buf s.len), buf := [], fsm := .finalized }

/-- The SM3 digest of a message (R85): CF folded from IV over the blocks of the message's whole blocks followed by `pad` of
its tail. R85 prints the whole message in front of that `pad`, which begins with the tail already (R76); here the tail stands
once, as R74 and R79 to R82 give it (log entry 18, DEDUCED). It is SM3 for messages of fewer than 2^61 bytes (R112). -/
def sm3 (m : List Byte) : List Byte :=
  let tail := m.drop (Config.blockBytes * (m.length / Config.blockBytes))
  serialize (compressAll Config.iv
    (m.take (Config.blockBytes * (m.length / Config.blockBytes)) ++ pad tail (BitVec.ofNat 64 (8 * m.length))))

end Sys2Proof.Machine
end

