-- ==== Sys2Proof/Machine/Commands.lean ====
section
/-! DEFINITION. The meaning of each command (spec/41_streaming.md R80 to R84) and of the words that are no command of the
map (spec/60_exceptions.md R91). Every one of them ends in a next state that holds the command's response: a refusal of the
HARDWARE is such a response, and no fault or refusal of the model. -/

namespace Sys2Proof.Machine

open Host (Outcome)

/-- RESET (R80): the empty-message state; refused in FAULT, which only hardware reset leaves (R94). -/
def execReset (s : State) : Outcome State Fault Refusal :=
  match s.fsm with
  | .fault => .next (refuse opcReset .fault s)
  | .accepting | .finalized =>
    .next (respond opcReset .ok [] { s with v := Config.iv, len := 0, buf := [], fsm := .accepting })

/-- WRITE (R81): the payload is absorbed and its count returned; after FINALIZE only an empty payload is taken (R92). -/
def execWrite (bs : List Byte) (s : State) : Outcome State Fault Refusal :=
  match s.fsm with
  | .fault => .next (refuse opcWrite .fault s)
  | .finalized =>
    if bs.length = 0 then .next (respond opcWrite .ok [0] s)
    else .next (refuse opcWrite .finalized s)
  | .accepting => .next (respond opcWrite .ok [BitVec.ofNat 32 bs.length] (absorb bs s))

/-- FINALIZE (R82): the digest of what was written; in FINALIZED the same digest again. -/
def execFinalize (s : State) : Outcome State Fault Refusal :=
  match s.fsm with
  | .fault => .next (refuse opcFinalize .fault s)
  | .finalized => .next (respond opcFinalize .ok (stateWords s.v) s)
  | .accepting => .next (finish opcFinalize s)

/-- SUM (R83): WRITE and then FINALIZE in one command with one response. -/
def execSum (bs : List Byte) (s : State) : Outcome State Fault Refusal :=
  match s.fsm with
  | .fault => .next (refuse opcSum .fault s)
  | .finalized =>
    if bs.length = 0 then .next (respond opcSum .ok (stateWords s.v) s)
    else .next (refuse opcSum .finalized s)
  | .accepting => .next (finish opcSum (absorb bs s))

/-- STATUS (R84): the STATUS register, in every state, FAULT included. -/
def execStatus (s : State) : Outcome State Fault Refusal :=
  .next (respond opcStatus .ok [statusRegister s] s)

/-- A command the opcode map does not give, answered with its OPC: FAULT in FAULT, else ILLEGAL (R91). -/
def execIllegal (opc : Byte) (s : State) : Outcome State Fault Refusal :=
  match s.fsm with
  | .fault => .next (refuse opc .fault s)
  | .accepting | .finalized => .next (refuse opc .illegal s)

/-- A malformed header of the map, its payload taken and discarded: FAULT in FAULT, else ILLEGAL (R91). -/
def execMalformed (opc : Byte) (s : State) : Outcome State Fault Refusal :=
  match s.fsm with
  | .fault => .next (refuse opc .fault s)
  | .accepting | .finalized => .next (refuse opc .illegal s)

end Sys2Proof.Machine
end

