-- ==== Sys2Proof/Machine/Dispatch.lean ====
section
/-! DEFINITION. One arm per command of the opcode table (spec/30_encoding.md R53). -/

namespace Sys2Proof.Machine

open Host (Outcome)

def exec (i : Instr) (s : State) : Host.Outcome State Fault Refusal :=
  match i with
  | .reset => Sys2Proof.Machine.execReset s
  | .write bs => Sys2Proof.Machine.execWrite bs s
  | .finalize => Sys2Proof.Machine.execFinalize s
  | .sum bs => Sys2Proof.Machine.execSum bs s
  | .status => Sys2Proof.Machine.execStatus s

end Sys2Proof.Machine
end

