-- ==== Sys2Proof/Machine/Ports.lean ====
section
/-! DEFINITION. The ports (spec/70_reset_and_hazards.md R103): the command-port decoder (spec/10_state.md R23), one edge of
the clock at which something happens, the output pins, and the placing of an instruction where the next edge takes it. -/

namespace Sys2Proof.Machine

open Host (Outcome)

/-- What the decoder makes of one more command word. -/
inductive Received where
  /-- The command is not whole yet: the decoder's next state. -/
  | waiting (d : Decoder)
  /-- The word was the command's last: what is to be performed. -/
  | complete (c : Decoded)
  deriving DecidableEq, Repr

/-- One command word taken by the decoder (R23, R46, R47): a header that announces no payload is a whole command; one that
does opens the collection; the last payload word closes it. No payload word is ever taken as a header (R42). -/
def receiveWord (d : Decoder) (w : Word) : Received :=
  match d with
  | .idle =>
    if payloadWords w = 0 then .complete (decodeCommand w [])
    else .waiting (.collecting w (payloadWords w) [])
  | .collecting h n bs =>
    if n ≤ 1 then .complete (decodeCommand h ((bs ++ be32bytes w).take (headerLen h)))
    else .waiting (.collecting h (n - 1) ((bs ++ be32bytes w).take (headerLen h)))

/-- Performing a whole command by the rule its constructor names (R54). -/
def perform (c : Decoded) (s : State) : Outcome State Fault Refusal :=
  match c with
  | .command i => exec i s
  | .malformed opc => execMalformed opc s
  | .illegal opc => execIllegal opc s

/-- One response word moves to the host (R103). -/
def sendResponse (w : Word) (ws : List Word) (s : State) : State :=
  { s with rsp := ws, rspOut := s.rspOut ++ [w] }

/-- One command word moves from the host (R103): the decoder takes it, and the command it completes is performed as one
atomic step, with the decoder back at IDLE (R37). -/
def takeCommandWord (w : Word) (ws : List Word) (s : State) : Outcome State Fault Refusal :=
  match receiveWord s.dec w with
  | .waiting d => .next { s with dec := d, cmdIn := ws }
  | .complete c => perform c { s with dec := .idle, cmdIn := ws }

/-- No command word on offer: between commands the block is idle and keeps its state (R102); inside a command it is stuck
(R110). -/
def awaitWord (s : State) : Outcome State Fault Refusal :=
  match s.dec with
  | .idle => .next s
  | .collecting _ _ _ => .fault .payloadAwaited

/-- One edge: hardware reset while rst_n is 0 (R104); else a pending response goes first, since the next command word is
taken only after its last word has been accepted (R39); else the next command word, if there is one. -/
def edge (s : State) : Outcome State Fault Refusal :=
  if s.rstN then
    match s.rsp with
    | w :: ws => if s.rspReady then .next (sendResponse w ws s) else .fault .responseAwaited
    | [] =>
      match s.cmdIn with
      | w :: ws => takeCommandWord w ws s
      | [] => awaitWord s
  else .next (hardReset s)

/-- Output pin cmd_ready: the hardware can take a command word (R39, R103, R104). -/
def cmdReady (s : State) : Bool := s.rstN && s.rsp.isEmpty

/-- Output pin rsp_valid: a response word is on offer (R103, R104). -/
def rspValid (s : State) : Bool := s.rstN && !s.rsp.isEmpty

/-- Output pins rsp_data: the word on offer; without one the spec gives them no value (R117). -/
def rspData (s : State) : Option Word := if rspValid s then s.rsp.head? else none

/-- The host has sent all of a command's words but the last, and offers that one: the next edge performs the command. -/
def placeCommand (words : List Word) (s : State) : State :=
  match words with
  | [] => s
  | [h] => { s with dec := .idle, rsp := [], rstN := true, cmdIn := h :: s.cmdIn }
  | h :: p :: ps =>
    { s with
      dec := .collecting h 1 ((p :: ps).dropLast.flatMap be32bytes)
      rsp := []
      rstN := true
      cmdIn := (p :: ps).getLastD p :: s.cmdIn }

end Sys2Proof.Machine
end

