-- ==== Sys2Proof/Machine/Step.lean ====
section
/-! DEFINITION. One step of the machine: one edge at which a word moves, reset is asserted, or nothing is on offer
(spec/70_reset_and_hazards.md R103, R104; log entry 1). -/

namespace Sys2Proof.Machine

def step (s : State) : Host.Outcome State Fault Refusal := edge s

/-- The instruction whose bits are `w` at the command port, every word but its last already taken (log entry 12). -/
def State.withFetchWord (s : State) (nbits w : Nat) : State :=
  placeCommand (tableWords nbits w) s

end Sys2Proof.Machine
end

