-- ==== Sys2Proof/Machine/Asm.lean ====
section
/-! DEFINITION. Command text and pseudo-instructions (spec/30_encoding.md R56, R57). Text is a list of ASCII codes. -/

namespace Sys2Proof.Machine

/-- One line of command text. -/
inductive AsmLine where
  | reset
  | write (bs : List Byte)
  | finalize
  | sum (bs : List Byte)
  | status
  /-- `.word`: one raw word. -/
  | word (w : Word)
  /-- Pseudo-instruction NOP. -/
  | nop
  /-- Pseudo-instruction HASH. -/
  | hash (bs : List Byte)
  deriving DecidableEq, Repr

/-- At most `n` full WRITEs and one for the rest, each of at most 65535 bytes. -/
def writeParts : Nat → List Byte → List Instr
  | 0, bs => [.write bs]
  | n + 1, bs =>
    if bs.length ≤ Config.maxLen then [.write bs]
    else .write (bs.take Config.maxLen) :: writeParts n (bs.drop Config.maxLen)

/-- `WRITE <bytes>` of any length (R57): WRITEs of 65535 bytes and one of the rest, which is empty only when the whole
operand is. -/
def writeExpansion (bs : List Byte) : List Instr :=
  writeParts (bs.length / Config.maxLen) bs

/-- The bytes of the last part of a long `SUM`: `len mod 65535`, or 65535 when that is 0 (R57). -/
def lastPart (n : Nat) : Nat :=
  if n % Config.maxLen = 0 then Config.maxLen else n % Config.maxLen

/-- `SUM <bytes>` of any length (R57). -/
def sumExpansion (bs : List Byte) : List Instr :=
  if bs.length ≤ Config.maxLen then [.sum bs]
  else
    writeExpansion (bs.take (bs.length - lastPart bs.length)) ++ [.sum (bs.drop (bs.length - lastPart bs.length))]

/-- `HASH <bytes>?` (R57). -/
def hashExpansion (bs : List Byte) : List Instr :=
  .reset :: sumExpansion bs

/-- `NOP` (R57): WRITE with no operand. -/
def nopExpansion : List Instr := [.write []]

/-- The words of a line (R56, R57). -/
def assemble : AsmLine → List Word
  | .reset => encode .reset
  | .write bs => (writeExpansion bs).flatMap encode
  | .finalize => encode .finalize
  | .sum bs => (sumExpansion bs).flatMap encode
  | .status => encode .status
  | .word w => [w]
  | .nop => nopExpansion.flatMap encode
  | .hash bs => (hashExpansion bs).flatMap encode

/-- The value of a hex digit, either case. -/
def hexDigit (c : Nat) : Option Nat :=
  if 48 ≤ c ∧ c ≤ 57 then some (c - 48)
  else if 97 ≤ c ∧ c ≤ 102 then some (c - 87)
  else if 65 ≤ c ∧ c ≤ 70 then some (c - 55)
  else none

/-- Two hex digits as one byte. -/
def hexByte (hi lo : Nat) : Option Byte :=
  match hexDigit hi, hexDigit lo with
  | some x, some y => some (BitVec.ofNat 8 (16 * x + y))
  | _, _ => none

/-- An even number of hex digits, two a byte in the order written. -/
def hexBytes : List Nat → Option (List Byte)
  | [] => some []
  | [_] => none
  | hi :: lo :: cs =>
    match hexByte hi lo, hexBytes cs with
    | some b, some bs => some (b :: bs)
    | _, _ => none

/-- A backslash starts an escape and a quote ends the string, so neither stands for itself. -/
def plainByte (c : Nat) : Option Byte :=
  if c = 34 ∨ c = 92 ∨ 128 ≤ c then none else some (BitVec.ofNat 8 c)

/-- The bytes of a quoted string, from after its opening quote (34) to its closing quote, which must end the text; the
escapes are backslash (92) and `xHH` (120), backslash, or quote. A repetition suffix behind the closing quote, which some lines
of the spec have and R56 has not, is refused (log entry 20, DESIGN CHOICE). -/
def stringBytes : List Nat → Option (List Byte)
  | [] => none
  | [c] => if c = 34 then some [] else none
  | 92 :: 120 :: hi :: lo :: cs =>
    match hexByte hi lo, stringBytes cs with
    | some b, some bs => some (b :: bs)
    | _, _ => none
  | 92 :: 92 :: cs => (stringBytes cs).map (0x5c :: ·)
  | 92 :: 34 :: cs => (stringBytes cs).map (0x22 :: ·)
  | c :: cs =>
    match plainByte c, stringBytes cs with
    | some b, some bs => some (b :: bs)
    | _, _ => none

/-- The operand `<bytes>?`: nothing, a quoted string, or `0x` (48, 120) and hex digits. -/
def operandBytes : List Nat → Option (List Byte)
  | [] => some []
  | 34 :: cs => stringBytes cs
  | 48 :: 120 :: cs => hexBytes cs
  | _ => none

/-- The operand of `.word`: `0x` and eight hex digits, one word a line (R56). The lines of spec/95_test_vectors.md that give
`.word` two hex words are refused: the rule is followed and not those lines (log entry 17, DESIGN CHOICE). -/
def operandWord (cs : List Nat) : Option Word :=
  match cs with
  | 48 :: 120 :: ds =>
    match hexBytes ds with
    | some [b0, b1, b2, b3] => some (be32 b0 b1 b2 b3)
    | _ => none
  | _ => none

/-- Text without the spaces and tabs in front of it. -/
def dropBlanks (cs : List Nat) : List Nat := cs.dropWhile fun c => c == 32 || c == 9

/-- Text without the spaces and tabs at either end. -/
def trimBlanks (cs : List Nat) : List Nat := (dropBlanks (dropBlanks cs).reverse).reverse

/-- The ASCII codes of a string. -/
def textOf (t : String) : List Nat := t.toList.map Char.toNat

/-- A line whose mnemonic and operand text have been split (R56): RESET, FINALIZE, STATUS and NOP take no operand. -/
def parseSplit (mnemonic operand : List Nat) : Option AsmLine :=
  if mnemonic = [82, 69, 83, 69, 84] then if operand = [] then some .reset else none -- RESET
  else if mnemonic = [87, 82, 73, 84, 69] then (operandBytes operand).map .write -- WRITE
  else if mnemonic = [70, 73, 78, 65, 76, 73, 90, 69] then if operand = [] then some .finalize else none -- FINALIZE
  else if mnemonic = [83, 85, 77] then (operandBytes operand).map .sum -- SUM
  else if mnemonic = [83, 84, 65, 84, 85, 83] then if operand = [] then some .status else none -- STATUS
  else if mnemonic = [46, 119, 111, 114, 100] then (operandWord operand).map .word -- .word
  else if mnemonic = [78, 79, 80] then if operand = [] then some .nop else none -- NOP
  else if mnemonic = [72, 65, 83, 72] then (operandBytes operand).map .hash -- HASH
  else none

/-- One line of command text: a mnemonic, then at most one operand (R56). Commands joined by semicolons are no line (log
entry 20, DESIGN CHOICE). -/
def parseLine (cs : List Nat) : Option AsmLine :=
  let t := trimBlanks cs
  parseSplit (t.takeWhile fun c => !(c == 32 || c == 9)) (dropBlanks (t.dropWhile fun c => !(c == 32 || c == 9)))

/-- The words that one line of command text stands for; `none` for text that is no line (R56, R57). -/
def assembleText (cs : List Nat) : Option (List Word) :=
  (parseLine cs).map assemble

end Sys2Proof.Machine
end

