-- ==== Sys2Proof/Machine/HostPort.lean ====
section
/-! DEFINITION. The host (spec/70_reset_and_hazards.md R103, R116): what it may do to the pins it drives, runs in which host and
hardware take turns, and the command-level view in which one command is one step (spec/92_eei_decisions.md D1). -/

namespace Sys2Proof.Machine

open Host (Outcome)

/-- What the host can do between two edges. -/
inductive HostAct where
  /-- It drives rst_n. -/
  | driveReset (rstN : Bool)
  /-- It drives rsp_ready. -/
  | driveReady (ready : Bool)
  /-- It will send these words after those it already offers. -/
  | send (ws : List Word)
  /-- It drops what it was going to send and sends these words instead; the word on cmd_data must stay (R103). -/
  | change (ws : List Word)
  deriving DecidableEq, Repr

/-- The effect of a host act on the pins. A word on offer that is taken back or altered before it moves breaks the port
protocol, and such a run has no meaning (R103, R117, U13). -/
def hostAct (a : HostAct) (s : State) : Outcome State Fault Refusal :=
  match a with
  | .driveReset b => .next { s with rstN := b }
  | .driveReady b => .next { s with rspReady := b }
  | .send ws => .next { s with cmdIn := s.cmdIn ++ ws }
  | .change ws =>
    match s.cmdIn with
    | [] => .next { s with cmdIn := ws }
    | w :: _ => if ws.head? = some w then .next { s with cmdIn := ws } else .refused .portProtocol

/-- One event of a run: an act of the host or an edge of the hardware. -/
inductive HostEvent where
  | act (a : HostAct)
  | tick
  deriving DecidableEq, Repr

/-- A run (R117): events in order, up to the first that has no next state. Whether the state it reaches is a good end, which
a state in FAULT never is, is `State.RunOver`. A hardware reset inside it does not end it (log entry 19, DESIGN CHOICE). -/
def session : List HostEvent → State → Outcome State Fault Refusal
  | [], s => .next s
  | .act a :: es, s =>
    match hostAct a s with
    | .next t => session es t
    | .fault r => .fault r
    | .refused r => .refused r
  | .tick :: es, s =>
    match step s with
    | .next t => session es t
    | .fault r => .fault r
    | .refused r => .refused r

/-- `n` edges with no act of the host between them. -/
def ticks (n : Nat) : List HostEvent := List.replicate n .tick

/-- Commands performed one after the other, each as one atomic step (R37, R39); the response left at the end is the last
command's. -/
def execAll : List Instr → State → Outcome State Fault Refusal
  | [], s => .next s
  | i :: is, s =>
    match exec i s with
    | .next t => execAll is t
    | .fault r => .fault r
    | .refused r => .refused r

/-- The responses of the commands of a list performed one after the other, in order (R117). -/
def responsesAll : List Instr → State → List Word
  | [], _ => []
  | i :: is, s =>
    match exec i s with
    | .next t => t.rsp ++ responsesAll is t
    | .fault _ => []
    | .refused _ => []

end Sys2Proof.Machine
end

