-- ==== Sys2Proof/Safety.lean ====
section
/-! DEFINITION. What a good state and a good end of a run are: the invariant that every reachable state keeps, and R117's end
of a run. -/

namespace Sys2Proof.Machine

/-- A decoder that R23 allows: IDLE, or COLLECTING with 1 to all of the announced payload words to come and the bytes of
the others received. -/
def Decoder.Sound : Decoder → Prop
  | .idle => True
  | .collecting h n bs => 1 ≤ n ∧ n ≤ payloadWords h ∧ bs.length = 4 * (payloadWords h - n)

/-- The invariant of the machine. -/
structure State.Inv (s : State) : Prop where
  /-- BUF holds fewer than 64 bytes (R17). -/
  bufShort : s.buf.length < 64
  /-- L is a multiple of 8 (R16). -/
  wholeBytes : s.len.toNat % 8 = 0
  /-- FAULT is never reached (R93). -/
  notFault : s.fsm ≠ .fault
  /-- While a message is written, BUF is what L leaves over (R18). -/
  bufCount : s.fsm = .accepting → s.buf.length = s.len.toNat / 8 % 64
  /-- After finalization nothing is buffered (R18). -/
  bufEmpty : s.fsm = .finalized → s.buf = []
  /-- The decoder is in a state that R23 gives it. -/
  decoder : s.dec.Sound
  /-- At most one response is pending, of at most nine words (R23, R51). -/
  rspShort : s.rsp.length ≤ 9
  /-- While a response is pending no command is being received (R39). -/
  rspFirst : s.rsp ≠ [] → s.dec = .idle

/-- The next edge takes the last word of a command and performs it (R37). -/
def State.Completes (s : State) (c : Decoded) : Prop :=
  s.rstN = true ∧ s.rsp = [] ∧ ∃ w ws, s.cmdIn = w :: ws ∧ receiveWord s.dec w = .complete c

/-- A list of whole 64-byte blocks. -/
def WholeBlocks (blocks : List (List Byte)) : Prop := ∀ b ∈ blocks, b.length = 64

/-- Every command the host has sent has been taken and has returned its whole response: no payload word and no response is
waited for (R117). A command that a hardware reset has abandoned (R105) is waited for no more, so this holds after a reset edge
with nothing on offer; that a reset does so to a run is log entry 19 (DESIGN CHOICE). -/
def State.AllReturned (s : State) : Prop :=
  s.cmdIn = [] ∧ s.dec = .idle ∧ s.rsp = []

/-- The run is over at a good end (R117): every command has returned its whole response, and the block is not in FAULT. A
run that reaches FSM = FAULT is a fault and never final (spec/60_exceptions.md R93), however quiet the ports are. It
speaks of the commands since the last hardware reset (log entry 19). -/
def State.RunOver (s : State) : Prop :=
  s.AllReturned ∧ s.fsm ≠ .fault

end Sys2Proof.Machine
end

