-- ==== Sys2Proof/Certificates/Slice0/Obligations.lean ====
section
/-! DEFINITION. The statements for the provers, in the order of the spec's rules: reset and steps, decoding, the compression
engine, the block streamer, the commands, whole messages. -/

open Sys2Proof Sys2Proof.Machine

/-! ### Reset, steps and the ports -/

/-- R27: what hardware reset and the RESET command leave, the latter refused in FAULT. -/
def Obligations.ResetLeavesEmptyMessage : Prop :=
  (stateWords State.reset.v =
      [0x7380166f, 0x4914b2b9, 0x172442d7, 0xda8a0600, 0xa96f30bc, 0x163138aa, 0xe38dee4d, 0xb0fb0e4e] ∧
    State.reset.len = 0 ∧ State.reset.buf = [] ∧ State.reset.fsm = .accepting ∧ statusRegister State.reset = 0 ∧
    State.reset.dec = .idle ∧ State.reset.rsp = []) ∧
  (∀ s : State, s.fsm ≠ .fault → ∃ t, exec .reset s = .next t ∧ t.v = State.reset.v ∧ t.len = 0 ∧ t.buf = [] ∧
    t.fsm = .accepting ∧ statusRegister t = 0 ∧ t.dec = s.dec ∧ t.rsp = [0x01000000]) ∧
  (∀ s : State, s.fsm = .fault → exec .reset s = .next { s with rsp := [0x01000003] })

/-- R104, R105: an edge with rst_n = 0, from any state, FAULT and half-received commands included, and what the output pins
say before and after it. That the pins are 0 for as long as rst_n is (the rule sets them at the edge) is log entry 10, that
cmd_ready is 1 as soon as rst_n is 1 again (R103 lets it wait) is log entry 9. What becomes of the host's own pins and words is in WordsMoveWhenValidAndReady. -/
def Obligations.HardwareResetFromAnyState : Prop :=
  ∀ s : State, s.rstN = false →
    cmdReady s = false ∧ rspValid s = false ∧
    ∃ t, step s = .next t ∧
      t.v = ⟨0x7380166f, 0x4914b2b9, 0x172442d7, 0xda8a0600, 0xa96f30bc, 0x163138aa, 0xe38dee4d, 0xb0fb0e4e⟩ ∧
      t.len = 0 ∧ t.buf = [] ∧ t.fsm = .accepting ∧ t.dec = .idle ∧ t.rsp = [] ∧
      cmdReady t = false ∧ rspValid t = false ∧
      cmdReady { t with rstN := true } = true ∧ rspValid { t with rstN := true } = false

/-- The invariant holds right after reset. -/
def Obligations.InvariantAtReset : Prop := State.reset.Inv

/-- Every step keeps the invariant, from every state that meets it (R16, R17, R18, R23, R93). -/
def Obligations.StepKeepsInvariant : Prop :=
  ∀ s t : State, s.Inv → step s = .next t → t.Inv

/-- Whatever the host does between edges, a run keeps the invariant. -/
def Obligations.EveryRunKeepsInvariant : Prop :=
  ∀ (es : List HostEvent) (s t : State), s.Inv → session es s = .next t → t.Inv

/-- R93: what `fault()` changes, that the padding check that would raise it never fails, and that no step enters FAULT from
any state that is not in it. -/
def Obligations.FaultNeverEntered : Prop :=
  (∀ (opc : Byte) (s : State),
    takeFault opc s = { s with fsm := .fault, rsp := [opc ++ (0x000003 : BitVec 24)] }) ∧
  (∀ (opc : Byte) (s : State), (pad s.buf s.len).length % 64 = 0 ∧ (finish opc s).fsm = .finalized) ∧
  (∀ s t : State, s.fsm ≠ .fault → step s = .next t → t.fsm ≠ .fault)

/-- R94: in FAULT every command but a well-formed STATUS is refused with FAULT and changes nothing, no step but hardware
reset changes V, L, BUF or FSM, and no response tells V, L or the bytes of BUF. -/
def Obligations.FaultIsSticky : Prop :=
  (∀ (s : State) (c : Decoded), s.fsm = .fault → c ≠ .command .status →
    perform c s = .next { s with rsp := [c.opc ++ (0x000003 : BitVec 24)] }) ∧
  (∀ s t : State, s.fsm = .fault → s.rstN = true → step s = .next t →
    t.v = s.v ∧ t.len = s.len ∧ t.buf = s.buf ∧ t.fsm = .fault) ∧
  (∀ s t : State, s.fsm = .fault → s.rstN = false → step s = .next t → t.fsm = .accepting) ∧
  (∀ (s s' t t' : State) (c : Decoded), s.fsm = .fault → s'.fsm = .fault → s.buf.length = s'.buf.length →
    perform c s = .next t → perform c s' = .next t' → t.rsp = t'.rsp)

/-- R19: the encoding of FSM, each row of the transition table, and that no other event changes FSM. The row of a broken
padding invariant, which no run takes (R93), is what `takeFault` does. -/
def Obligations.FsmTransitions : Prop :=
  (fsmCode .accepting = 0 ∧ fsmCode .finalized = 1 ∧ fsmCode .fault = 2 ∧ ∀ f, fsmCode f ≠ 3) ∧
  (∀ (opc : Byte) (s : State), (takeFault opc s).fsm = .fault) ∧
  ∀ s t : State, step s = .next t →
    (s.rstN = false → t.fsm = .accepting) ∧
    (s.Completes (.command .reset) → s.fsm ≠ .fault → t.fsm = .accepting) ∧
    ((s.Completes (.command .finalize) ∨ ∃ bs, s.Completes (.command (.sum bs))) → s.fsm = .accepting →
      t.fsm = .finalized) ∧
    (s.rstN = true → s.fsm = .fault → t.fsm = .fault) ∧
    (t.fsm ≠ s.fsm →
      s.rstN = false ∨
      (s.Completes (.command .reset) ∧ s.fsm ≠ .fault) ∨
      ((s.Completes (.command .finalize) ∨ ∃ bs, s.Completes (.command (.sum bs))) ∧ s.fsm = .accepting))

/-- R13: the four places that write V, and what each writes. -/
def Obligations.OnlyFourWritersOfV : Prop :=
  ∀ s t : State, step s = .next t → t.v ≠ s.v →
    (s.rstN = false ∧ t.v = Config.iv) ∨
    (s.Completes (.command .reset) ∧ t.v = Config.iv) ∨
    (∃ bs blocks, s.Completes (.command (.write bs)) ∧ WholeBlocks blocks ∧ t.v = blocks.foldl cf s.v ∧
      s.buf ++ bs = blocks.flatten ++ t.buf) ∨
    (∃ blocks, s.Completes (.command .finalize) ∧ WholeBlocks blocks ∧ t.v = blocks.foldl cf s.v ∧
      blocks.flatten = pad s.buf s.len) ∨
    (∃ bs blocks tail padding, s.Completes (.command (.sum bs)) ∧ WholeBlocks blocks ∧ WholeBlocks padding ∧
      t.v = (blocks ++ padding).foldl cf s.v ∧ s.buf ++ bs = blocks.flatten ++ tail ∧ tail.length < 64 ∧
      padding.flatten = pad tail t.len)

/-- A step that takes a command's last word runs the command on the state with that word gone and the decoder idle; a step
that takes another word changes the decoder alone. -/
def Obligations.StepRunsDecodedCommand : Prop :=
  (∀ (s : State) (w : Word) (ws : List Word) (i : Instr), s.rstN = true → s.rsp = [] → s.cmdIn = w :: ws →
    receiveWord s.dec w = .complete (.command i) → step s = exec i { s with dec := .idle, cmdIn := ws }) ∧
  (∀ (s : State) (w : Word) (ws : List Word) (c : Decoded), s.rstN = true → s.rsp = [] → s.cmdIn = w :: ws →
    receiveWord s.dec w = .complete c → step s = perform c { s with dec := .idle, cmdIn := ws }) ∧
  (∀ (s : State) (w : Word) (ws : List Word) (d : Decoder), s.rstN = true → s.rsp = [] → s.cmdIn = w :: ws →
    receiveWord s.dec w = .waiting d → step s = .next { s with dec := d, cmdIn := ws })

/-- From a command boundary the port machine, one word a step, performs exactly the command that the decoder reads from the
words on offer (R37, R54). That a word takes one step is log entry 1. -/
def Obligations.WordsOfCommandRunIt : Prop :=
  ∀ (s : State) (c : Decoded) (rest : List Word), s.rstN = true → s.rsp = [] → s.dec = .idle →
    decode s.cmdIn = some (c, rest) →
    session (ticks (s.cmdIn.length - rest.length)) s = perform c { s with cmdIn := rest }

/-- A pending response reaches a host that takes it, word by word in order, and nothing else changes (R39, R109). That a word takes one step is log entry 1. -/
def Obligations.ResponseIsDelivered : Prop :=
  ∀ s : State, s.rstN = true → s.rspReady = true →
    session (ticks s.rsp.length) s = .next { s with rsp := [], rspOut := s.rspOut ++ s.rsp }

/-- R89: every command on offer at a command boundary is answered by exactly one response, which the host receives whole:
at the end the block is at a command boundary again, with the command's effect and no other. That a word takes one step is log entry 1. -/
def Obligations.EveryCommandIsAnswered : Prop :=
  ∀ (s : State) (c : Decoded) (rest : List Word), s.rstN = true → s.rspReady = true → s.rsp = [] → s.dec = .idle →
    decode s.cmdIn = some (c, rest) →
    ∃ t, perform c { s with cmdIn := rest } = .next t ∧ t.rsp ≠ [] ∧ t.rsp.length ≤ 9 ∧
      session (ticks (s.cmdIn.length - rest.length + t.rsp.length)) s =
        .next { t with rsp := [], rspOut := s.rspOut ++ t.rsp }

/-- R39: while a response word is pending no command word is taken and no effect takes place. That a step is stuck when the
host does not take the word is log entry 4 (spec/93_implementation_defined.md U12). -/
def Obligations.ResponseBeforeNextCommand : Prop :=
  ∀ (s : State) (w : Word) (ws : List Word), s.rstN = true → s.rsp = w :: ws →
    cmdReady s = false ∧ rspData s = some w ∧
    (s.rspReady = true → step s = .next { s with rsp := ws, rspOut := s.rspOut ++ [w] }) ∧
    (s.rspReady = false → step s = .fault .responseAwaited)

/-- R110, R102: without a word on offer a half-received command is stuck and an idle block stays as it is. -/
def Obligations.StuckOrIdleWithoutWords : Prop :=
  (∀ (s : State) (h : Word) (n : Nat) (bs : List Byte), s.rstN = true → s.rsp = [] → s.cmdIn = [] →
    s.dec = .collecting h n bs → step s = .fault .payloadAwaited) ∧
  (∀ s : State, s.rstN = true → s.rsp = [] → s.cmdIn = [] → s.dec = .idle → step s = .next s)

/-- R37: a step that does not complete a command leaves V, L, BUF and FSM alone, unless it is a reset. -/
def Obligations.PartOfCommandHasNoEffect : Prop :=
  ∀ s t : State, step s = .next t → s.rstN = true → (∀ c, ¬ s.Completes c) →
    t.v = s.v ∧ t.len = s.len ∧ t.buf = s.buf ∧ t.fsm = s.fsm

/-- R103: the words that one step moves, and no others; the pins that the host drives stay as it drives them. At a reset edge
no word moves (log entry 10); cmd_ready and rsp_valid never wait for a busy block (log entry 9). -/
def Obligations.WordsMoveWhenValidAndReady : Prop :=
  ∀ s t : State, step s = .next t →
    t.rstN = s.rstN ∧ t.rspReady = s.rspReady ∧
    (cmdReady s = true → t.cmdIn = s.cmdIn.tail) ∧ (cmdReady s = false → t.cmdIn = s.cmdIn) ∧
    (rspValid s = true → s.rspReady = true ∧ ∃ w, rspData s = some w ∧ t.rspOut = s.rspOut ++ [w] ∧ s.rsp = w :: t.rsp) ∧
    (rspValid s = false → t.rspOut = s.rspOut)

/-- R103: a host that takes back or alters the word on offer is given no meaning; every other act only moves its pins. -/
def Obligations.PortProtocol : Prop :=
  (∀ (s : State) (w : Word) (rest ws : List Word), s.cmdIn = w :: rest → ws.head? ≠ some w →
    hostAct (.change ws) s = .refused .portProtocol) ∧
  (∀ (s : State) (w : Word) (rest ws : List Word), s.cmdIn = w :: rest → ws.head? = some w →
    hostAct (.change ws) s = .next { s with cmdIn := ws }) ∧
  (∀ (s : State) (ws : List Word), s.cmdIn = [] → hostAct (.change ws) s = .next { s with cmdIn := ws }) ∧
  (∀ (s : State) (ws : List Word) (b : Bool), hostAct (.send ws) s = .next { s with cmdIn := s.cmdIn ++ ws } ∧
    hostAct (.driveReset b) s = .next { s with rstN := b } ∧ hostAct (.driveReady b) s = .next { s with rspReady := b })

/-! ### Decoding -/

/-- Every well-formed command, with every payload, is read back from its words (R45, R47, R54, R56). -/
def Obligations.DecodeOfEncode : Prop :=
  ∀ (i : Instr) (rest : List Word), i.wellFormed = true → decode (encode i ++ rest) = some (.command i, rest)

/-- Words that decode to a command are that command's words, but for the ignored lanes of the last payload word. -/
def Obligations.DecodedWordsAreTheEncoding : Prop :=
  ∀ (ws rest : List Word) (i : Instr), decode ws = some (.command i, rest) →
    i.wellFormed = true ∧
    ∃ h ps, ws = h :: (ps ++ rest) ∧ (encode i).head? = some h ∧ (encode i).length = ps.length + 1 ∧
      payloadBytes i.payload.length ps = i.payload

/-- Headers of spec/95_test_vectors.md section 2.1, written out. -/
def Obligations.SampleHeadersDecode : Prop :=
  decode [0x01000000] = some (.command .reset, []) ∧
  decode [0x02000000] = some (.command (.write []), []) ∧
  decode [0x02000005, 0x61626364, 0x65aabbcc, 7] = some (.command (.write [0x61, 0x62, 0x63, 0x64, 0x65]), [7]) ∧
  decode [0x03000000] = some (.command .finalize, []) ∧
  decode [0x04000003, 0x616263ff] = some (.command (.sum [0x61, 0x62, 0x63]), []) ∧
  decode [0x05000000] = some (.command .status, []) ∧
  decode [0x00000000] = some (.illegal 0x00, []) ∧
  decode [0x03000004, 9] = some (.malformed 0x03, [9]) ∧
  decode [0x04ff0005, 0x11223344, 0x55000000] = some (.malformed 0x04, []) ∧
  decode [0x02000008, 0x61626364] = none

/-- R53: the opcode map, by match and mask. -/
def Obligations.OpcodeMap : Prop :=
  ∀ (h : Word) (bs : List Byte),
    (decodeCommand h bs = .command .reset ↔ h &&& 0xFFFFFFFF = 0x01000000) ∧
    (decodeCommand h bs = .command (.write bs) ↔ h &&& 0xFFFF0000 = 0x02000000) ∧
    (decodeCommand h bs = .command .finalize ↔ h &&& 0xFFFFFFFF = 0x03000000) ∧
    (decodeCommand h bs = .command (.sum bs) ↔ h &&& 0xFFFF0000 = 0x04000000) ∧
    (decodeCommand h bs = .command .status ↔ h &&& 0xFFFFFFFF = 0x05000000) ∧
    headerLen h = (h &&& 0x0000FFFF).toNat

/-- R46: the length of a command, by its header alone. -/
def Obligations.CommandLength : Prop :=
  ∀ (h : Word) (ws : List Word),
    let need := if h.toNat / 2 ^ 24 = 2 ∨ h.toNat / 2 ^ 24 = 4 then (h.toNat % 2 ^ 16 + 3) / 4 else 0
    (ws.length < need → decode (h :: ws) = none) ∧
    (need ≤ ws.length → ∃ c, decode (h :: ws) = some (c, ws.drop need)) ∧
    need ≤ 16384

/-- R48, R55, R91: which headers are well-formed, and that every other is refused with its OPC echoed, after the words R46
gives it have been taken. -/
def Obligations.IllFormedHeadersRefused : Prop :=
  (∀ (h : Word) (bs : List Byte),
    (∃ i, decodeCommand h bs = .command i) ↔
      (1 ≤ h.toNat / 2 ^ 24 ∧ h.toNat / 2 ^ 24 ≤ 5) ∧ h.toNat / 2 ^ 16 % 2 ^ 8 = 0 ∧
      (h.toNat / 2 ^ 24 = 1 ∨ h.toNat / 2 ^ 24 = 3 ∨ h.toNat / 2 ^ 24 = 5 → h.toNat % 2 ^ 16 = 0)) ∧
  (∀ (h : Word) (bs : List Byte), h.toNat / 2 ^ 24 = 0 ∨ 6 ≤ h.toNat / 2 ^ 24 →
      decodeCommand h bs = .illegal (h.extractLsb' 24 8)) ∧
  (∀ h : Word, payloadWords h =
      if h.toNat / 2 ^ 24 = 2 ∨ h.toNat / 2 ^ 24 = 4 then (h.toNat % 2 ^ 16 + 3) / 4 else 0) ∧
  (∀ (h : Word) (bs : List Byte) (s : State), (∀ i, decodeCommand h bs ≠ .command i) → s.fsm ≠ .fault →
    perform (decodeCommand h bs) s = .next { s with rsp := [h.extractLsb' 24 8 ++ (0x000001 : BitVec 24)] }) ∧
  (∀ (h : Word) (bs : List Byte) (s : State), (∀ i, decodeCommand h bs ≠ .command i) → s.fsm = .fault →
    perform (decodeCommand h bs) s = .next { s with rsp := [h.extractLsb' 24 8 ++ (0x000003 : BitVec 24)] })

/-- R47: byte k of a payload is in word k div 4, bits [31 - 8*(k mod 4) : 24 - 8*(k mod 4)]; other lanes do not matter. -/
def Obligations.PayloadByteLanes : Prop :=
  ∀ (n : Nat) (ps : List Word), ps.length = (n + 3) / 4 →
    (payloadBytes n ps).length = n ∧
    ∀ k, k < n → (payloadBytes n ps)[k]? = (ps[k / 4]?).map fun p => p.extractLsb' (24 - 8 * (k % 4)) 8

/-- R33: a 64-byte block that arrives word-aligned gives W[i] = payload word i. -/
def Obligations.AlignedPayloadIsBlockWords : Prop :=
  ∀ ps : List Word, ps.length = 16 → blockWords (payloadBytes 64 ps) = ps

/-! ### The compression engine -/

/-- R58: rotation, as the rule writes it and bit by bit. -/
def Obligations.RotationBits : Prop :=
  ∀ (x : Word) (n : Nat),
    (n % 32 = 0 → rotl x n = x) ∧
    (0 < n % 32 → (rotl x n).toNat = (x.toNat * 2 ^ (n % 32)) % 2 ^ 32 ||| x.toNat / 2 ^ (32 - n % 32)) ∧
    ∀ i, i < 32 → (rotl x n).getLsbD ((i + n) % 32) = x.getLsbD i

/-- R60, R61: the permutations bit by bit. -/
def Obligations.PermutationBits : Prop :=
  ∀ (x : Word) (i : Nat), i < 32 →
    (p0 x).getLsbD i = (x.getLsbD i ^^ x.getLsbD ((i + 23) % 32) ^^ x.getLsbD ((i + 15) % 32)) ∧
    (p1 x).getLsbD i = (x.getLsbD i ^^ x.getLsbD ((i + 17) % 32) ^^ x.getLsbD ((i + 9) % 32))

/-- R62: the round constants, and that rounds 48 to 63 repeat the rotated constants of rounds 16 to 31. -/
def Obligations.RotatedRoundConstants : Prop :=
  (∀ j, j ≤ 15 → rotatedConstant j = (0x79cc4519 : Word).rotateLeft j) ∧
  (∀ j, 16 ≤ j → j ≤ 63 → rotatedConstant j = (0x7a879d8a : Word).rotateLeft (j % 32)) ∧
  (∀ j, 16 ≤ j → j ≤ 31 → rotatedConstant (j + 32) = rotatedConstant j)

/-- R63, R64: parity in rounds 0 to 15, then bitwise majority and bitwise choose. -/
def Obligations.BooleanFunctionBits : Prop :=
  ∀ (j : Nat) (x y z : Word) (i : Nat), i < 32 →
    (j ≤ 15 → (ff j x y z).getLsbD i = (x.getLsbD i ^^ y.getLsbD i ^^ z.getLsbD i) ∧ gg j x y z = ff j x y z) ∧
    (16 ≤ j →
      (ff j x y z).getLsbD i = decide (2 ≤ [x.getLsbD i, y.getLsbD i, z.getLsbD i].count true) ∧
      (gg j x y z).getLsbD i = if x.getLsbD i then y.getLsbD i else z.getLsbD i)

/-- R65, R66, R67: the expanded words of a block. -/
def Obligations.MessageExpansion : Prop :=
  ∀ block : List Byte, block.length = 64 →
    (expand block).length = 68 ∧
    (∀ i, i < 16 → wordW (expand block) i =
      block.getD (4 * i) 0 ++ block.getD (4 * i + 1) 0 ++ block.getD (4 * i + 2) 0 ++ block.getD (4 * i + 3) 0) ∧
    (∀ j, 16 ≤ j → j ≤ 67 → wordW (expand block) j =
      p1 (wordW (expand block) (j - 16) ^^^ wordW (expand block) (j - 9) ^^^
          (wordW (expand block) (j - 3)).rotateLeft 15) ^^^
        (wordW (expand block) (j - 13)).rotateLeft 7 ^^^ wordW (expand block) (j - 6)) ∧
    (∀ j, j ≤ 63 → wordW' (expand block) j = wordW (expand block) j ^^^ wordW (expand block) (j + 4))

/-- R69: one round, written as the source's sequence of single assignments. -/
def Obligations.RoundAsSequence : Prop :=
  ∀ (j : Nat) (w w' : Word) (r : HashState),
    let ss1 := (r.a.rotateLeft 12 + r.e + rotatedConstant j).rotateLeft 7
    let ss2 := ss1 ^^^ r.a.rotateLeft 12
    let tt1 := ff j r.a r.b r.c + r.d + ss2 + w'
    let tt2 := gg j r.e r.f r.g + r.h + ss1 + w
    let r1 := { r with d := r.c }
    let r2 := { r1 with c := r1.b.rotateLeft 9 }
    let r3 := { r2 with b := r2.a }
    let r4 := { r3 with a := tt1 }
    let r5 := { r4 with h := r4.g }
    let r6 := { r5 with g := r5.f.rotateLeft 19 }
    let r7 := { r6 with f := r6.e }
    compressRound j w w' r = { r7 with e := p0 tt2 }

/-- R70: CF is the 64 rounds on registers loaded from V, then the exclusive or with V, for the words W that R65 and R66 give
the block, however they were obtained. -/
def Obligations.CompressionFunction : Prop :=
  ∀ (v : HashState) (block : List Byte) (W : Nat → Word), block.length = 64 →
    (∀ i, i < 16 → W i =
      block.getD (4 * i) 0 ++ block.getD (4 * i + 1) 0 ++ block.getD (4 * i + 2) 0 ++ block.getD (4 * i + 3) 0) →
    (∀ j, 16 ≤ j → j ≤ 67 →
      W j = p1 (W (j - 16) ^^^ W (j - 9) ^^^ rotl (W (j - 3)) 15) ^^^ rotl (W (j - 13)) 7 ^^^ W (j - 6)) →
    let r := (List.range 64).foldl (fun r j => compressRound j (W j) (W j ^^^ W (j + 4)) r) v
    cf v block = ⟨v.a ^^^ r.a, v.b ^^^ r.b, v.c ^^^ r.c, v.d ^^^ r.d, v.e ^^^ r.e, v.f ^^^ r.f, v.g ^^^ r.g, v.h ^^^ r.h⟩

/-- The worked example of R70. -/
def Obligations.CompressionKnownAnswer : Prop :=
  stateWords (cf Config.iv (pad [0x61, 0x62, 0x63] 24)) =
    [0x66c7f0f4, 0x62eeedd9, 0xd1f2d46b, 0xdc10e4e2, 0x4167c487, 0x5cf2f7a2, 0x297da02b, 0x8f4ba8e0]

/-! ### The block streamer -/

/-- R74: absorb compresses the consecutive 64-byte groups of BUF ++ bs in order and keeps the rest. -/
def Obligations.AbsorbCompressesBlocks : Prop :=
  ∀ (v : HashState) (buf bs : List Byte),
    ∃ blocks, WholeBlocks blocks ∧ buf ++ bs = blocks.flatten ++ (absorbed v buf bs).2 ∧
      (absorbed v buf bs).2.length < 64 ∧ (absorbed v buf bs).1 = blocks.foldl cf v ∧
      blocks.length = (buf.length + bs.length) / 64

/-- R76, R31: the padding, with the least number of zero bytes and L as eight bytes, most significant first. -/
def Obligations.PaddingBytes : Prop :=
  ∀ (buf : List Byte) (len : Length),
    ∃ (k : Nat) (last : List Byte),
      pad buf len = buf ++ [0x80] ++ List.replicate k 0 ++ last ∧
      (buf.length + 1 + k) % 64 = 56 ∧ (∀ k', (buf.length + 1 + k') % 64 = 56 → k ≤ k') ∧
      last.length = 8 ∧ last.foldl (fun n b => 256 * n + b.toNat) 0 = len.toNat

/-- R77: one block for up to 55 buffered bytes, two for 56 to 63, a multiple of 64 always, and the zero bytes at the
boundary values. -/
def Obligations.PaddingLength : Prop :=
  ∀ (buf : List Byte) (len : Length),
    (buf.length ≤ 55 → (pad buf len).length = 64) ∧
    (56 ≤ buf.length → buf.length ≤ 63 → (pad buf len).length = 128) ∧
    (pad buf len).length % 64 = 0 ∧
    ∃ (k : Nat) (last : List Byte), pad buf len = buf ++ [0x80] ++ List.replicate k 0 ++ last ∧ last.length = 8 ∧
      (buf.length = 0 → k = 55) ∧ (buf.length = 55 → k = 0) ∧ (buf.length = 56 → k = 63) ∧ (buf.length = 63 → k = 56)

/-- R32: the digest is V, word by word, each most significant byte first. -/
def Obligations.DigestBytes : Prop :=
  ∀ v : HashState, (serialize v).length = 32 ∧
    ∀ i k, i < 8 → k < 4 → (serialize v)[4 * i + k]? =
      ([v.a, v.b, v.c, v.d, v.e, v.f, v.g, v.h][i]?).map fun w => w.extractLsb' (24 - 8 * k) 8

/-! ### The commands -/

/-- R80. -/
def Obligations.ResetCommand : Prop :=
  ∀ s : State,
    (s.fsm ≠ .fault → exec .reset s =
      .next { s with v := Config.iv, len := 0, buf := [], fsm := .accepting, rsp := [0x01000000] }) ∧
    (s.fsm = .fault → exec .reset s = .next { s with rsp := [0x01000003] }) ∧
    (s.fsm ≠ .fault → perform (.malformed 0x01) s = .next { s with rsp := [0x01000001] }) ∧
    encode .reset = [0x01000000]

/-- R81. -/
def Obligations.WriteCommand : Prop :=
  ∀ (bs : List Byte) (s : State),
    (s.fsm = .accepting → ∃ blocks tail, WholeBlocks blocks ∧ s.buf ++ bs = blocks.flatten ++ tail ∧ tail.length < 64 ∧
      exec (.write bs) s = .next { s with
        v := blocks.foldl cf s.v, len := BitVec.ofNat 64 (s.len.toNat + 8 * bs.length), buf := tail,
        rsp := [0x02000000, BitVec.ofNat 32 bs.length] }) ∧
    (s.fsm = .finalized → bs = [] → exec (.write bs) s = .next { s with rsp := [0x02000000, 0] }) ∧
    (s.fsm = .finalized → bs ≠ [] → exec (.write bs) s = .next { s with rsp := [0x02000002] }) ∧
    (s.fsm = .fault → exec (.write bs) s = .next { s with rsp := [0x02000003] }) ∧
    (s.fsm ≠ .fault → perform (.malformed 0x02) s = .next { s with rsp := [0x02000001] }) ∧
    (bs.length ≤ 65535 → (encode (.write bs)).head? = some (0x02000000 + BitVec.ofNat 32 bs.length) ∧
      (encode (.write bs)).length = 1 + (bs.length + 3) / 4)

/-- R82, with R79's `finish()`. -/
def Obligations.FinalizeCommand : Prop :=
  ∀ s : State,
    (s.fsm = .accepting → ∃ blocks, WholeBlocks blocks ∧ blocks.flatten = pad s.buf s.len ∧
      exec .finalize s = .next { s with
        v := blocks.foldl cf s.v, buf := [], fsm := .finalized,
        rsp := 0x03000000 :: stateWords (blocks.foldl cf s.v) }) ∧
    (s.fsm = .finalized → exec .finalize s = .next { s with rsp := 0x03000000 :: stateWords s.v }) ∧
    (s.fsm = .fault → exec .finalize s = .next { s with rsp := [0x03000003] }) ∧
    (s.fsm ≠ .fault → perform (.malformed 0x03) s = .next { s with rsp := [0x03000001] }) ∧
    encode .finalize = [0x03000000]

/-- R83, its equivalence with WRITE and then FINALIZE included. -/
def Obligations.SumCommand : Prop :=
  ∀ (bs : List Byte) (s : State),
    (s.fsm = .accepting → ∃ blocks tail padding, WholeBlocks blocks ∧ WholeBlocks padding ∧
      s.buf ++ bs = blocks.flatten ++ tail ∧ tail.length < 64 ∧
      padding.flatten = pad tail (BitVec.ofNat 64 (s.len.toNat + 8 * bs.length)) ∧
      exec (.sum bs) s = .next { s with
        v := (blocks ++ padding).foldl cf s.v, len := BitVec.ofNat 64 (s.len.toNat + 8 * bs.length), buf := [],
        fsm := .finalized, rsp := 0x04000000 :: stateWords ((blocks ++ padding).foldl cf s.v) }) ∧
    (s.fsm = .finalized → bs = [] → exec (.sum bs) s = .next { s with rsp := 0x04000000 :: stateWords s.v }) ∧
    (s.fsm = .finalized → bs ≠ [] → exec (.sum bs) s = .next { s with rsp := [0x04000002] }) ∧
    (s.fsm = .fault → exec (.sum bs) s = .next { s with rsp := [0x04000003] }) ∧
    (s.fsm ≠ .fault → perform (.malformed 0x04) s = .next { s with rsp := [0x04000001] }) ∧
    (bs.length ≤ 65535 → (encode (.sum bs)).head? = some (0x04000000 + BitVec.ofNat 32 bs.length) ∧
      (encode (.sum bs)).length = 1 + (bs.length + 3) / 4) ∧
    ∃ t u w, exec (.sum bs) s = .next t ∧ exec (.write bs) s = .next u ∧ exec .finalize u = .next w ∧
      t.v = w.v ∧ t.len = w.len ∧ t.buf = w.buf ∧ t.fsm = w.fsm ∧
      (t.rsp.head? = some 0x04000000 → w.rsp.head? = some 0x03000000 ∧ t.rsp.tail = w.rsp.tail)

/-- R84, R20: STATUS reads the register in every state and changes nothing. -/
def Obligations.StatusCommand : Prop :=
  (∀ s : State, s.buf.length < 64 →
    exec .status s = .next { s with rsp := [0x05000000, BitVec.ofNat 32 (s.buf.length * 2 ^ 8 + (fsmCode s.fsm).toNat)] } ∧
    statusRegister s = BitVec.ofNat 32 (s.buf.length * 2 ^ 8 + (fsmCode s.fsm).toNat)) ∧
  (∀ s : State, (statusRegister s).extractLsb' 0 2 = fsmCode s.fsm ∧ (statusRegister s).extractLsb' 2 6 = 0 ∧
    (statusRegister s).extractLsb' 8 6 = BitVec.ofNat 6 s.buf.length ∧ (statusRegister s).extractLsb' 14 18 = 0) ∧
  statusRegister State.reset = 0 ∧
  (∀ s : State, s.fsm ≠ .fault → perform (.malformed 0x05) s = .next { s with rsp := [0x05000001] }) ∧
  (∀ s : State, s.fsm = .fault → perform (.malformed 0x05) s = .next { s with rsp := [0x05000003] }) ∧
  encode .status = [0x05000000]

/-- R92: a WRITE or SUM with payload after finalization is refused and changes nothing. -/
def Obligations.WriteAfterFinalizeRefused : Prop :=
  ∀ (bs : List Byte) (s : State), s.fsm = .finalized → 0 < bs.length →
    exec (.write bs) s = .next { s with rsp := [0x02000002] } ∧
    exec (.sum bs) s = .next { s with rsp := [0x04000002] }

/-- R95: the response code of a command is that of the first cause that applies, and the status word echoes the OPC (R49):
FAULT, then ILLEGAL, then FINALIZED, else OK. -/
def Obligations.RefusalPriority : Prop :=
  ∀ (c : Decoded) (s : State),
    let faulted := s.fsm = .fault ∧ c ≠ .command .status
    let illFormed := ∀ i, c ≠ .command i
    let late := s.fsm = .finalized ∧ ∃ bs, bs ≠ [] ∧ (c = .command (.write bs) ∨ c = .command (.sum bs))
    ∃ t, perform c s = .next t ∧
      (faulted → t.rsp.head? = some (c.opc ++ (0x000003 : BitVec 24))) ∧
      (¬faulted → illFormed → t.rsp.head? = some (c.opc ++ (0x000001 : BitVec 24))) ∧
      (¬faulted → ¬illFormed → late → t.rsp.head? = some (c.opc ++ (0x000002 : BitVec 24))) ∧
      (¬faulted → ¬illFormed → ¬late → t.rsp.head? = some (c.opc ++ (0x000000 : BitVec 24)))

/-- R49, R50: every response begins with a status word that echoes the OPC field of the header, holds 0 in bits 23 to 8 and
one of the four response codes in bits 7 to 0. -/
def Obligations.StatusWordFormat : Prop :=
  (∀ (h : Word) (bs : List Byte), (decodeCommand h bs).opc = h.extractLsb' 24 8) ∧
  (∀ (c : Decoded) (s t : State), perform c s = .next t → ∃ w ds, t.rsp = w :: ds ∧
    w.toNat = c.opc.toNat * 2 ^ 24 + w.toNat % 2 ^ 8 ∧ w.toNat % 2 ^ 8 ≤ 3)

/-- R89: a refused command returns no data words and changes no state. -/
def Obligations.RefusedCommandChangesNothing : Prop :=
  ∀ (c : Decoded) (s t : State), perform c s = .next t → (∀ w, t.rsp.head? = some w → w.extractLsb' 0 8 ≠ 0x00) →
    t.rsp.length = 1 ∧ t = { s with rsp := t.rsp }

/-- R51: the number of data words of each response. -/
def Obligations.ResponseLengths : Prop :=
  ∀ (c : Decoded) (s : State), ∃ t w ds, perform c s = .next t ∧ t.rsp = w :: ds ∧
    (w.extractLsb' 0 8 ≠ 0x00 → ds = []) ∧
    (w.extractLsb' 0 8 = 0x00 →
      (c = .command .reset ∧ ds = []) ∨ (∃ bs, c = .command (.write bs) ∧ ds = [BitVec.ofNat 32 bs.length]) ∨
      (c = .command .finalize ∧ ds = [t.v.a, t.v.b, t.v.c, t.v.d, t.v.e, t.v.f, t.v.g, t.v.h]) ∨
      (∃ bs, c = .command (.sum bs) ∧ ds = [t.v.a, t.v.b, t.v.c, t.v.d, t.v.e, t.v.f, t.v.g, t.v.h]) ∨
      (c = .command .status ∧ ds = [statusRegister s]))

/-- What each command leaves unchanged: all of the decoder, the pins and what the host received; V, L, BUF and FSM but for
those its rule writes. -/
def Obligations.CommandFrames : Prop :=
  (∀ (c : Decoded) (s t : State), perform c s = .next t →
    t.dec = s.dec ∧ t.rstN = s.rstN ∧ t.rspReady = s.rspReady ∧ t.cmdIn = s.cmdIn ∧ t.rspOut = s.rspOut) ∧
  (∀ (bs : List Byte) (s t : State), exec (.write bs) s = .next t → t.fsm = s.fsm) ∧
  (∀ s t : State, exec .finalize s = .next t → t.len = s.len) ∧
  (∀ s t : State, exec .status s = .next t → t.v = s.v ∧ t.len = s.len ∧ t.buf = s.buf ∧ t.fsm = s.fsm) ∧
  (∀ (c : Decoded) (s t : State), (∀ i, c ≠ .command i) → perform c s = .next t →
    t.v = s.v ∧ t.len = s.len ∧ t.buf = s.buf ∧ t.fsm = s.fsm)

/-- R38: the idempotent commands, and that an empty WRITE changes no state. -/
def Obligations.IdempotentCommands : Prop :=
  (∀ (c : Decoded) (s t : State),
    (∀ bs, bs ≠ [] → c ≠ .command (.write bs) ∧ c ≠ .command (.sum bs)) →
    perform c s = .next t → perform c t = .next t) ∧
  (∀ s t : State, s.buf.length < 64 → exec (.write []) s = .next t → t = { s with rsp := t.rsp }) ∧
  (∀ (bs : List Byte) (s t u : State), bs ≠ [] → s.fsm = .accepting → exec (.sum bs) s = .next t →
    exec (.sum bs) t = .next u → u = { t with rsp := [0x04000002] })

/-- R87: response and effect are a function of V, L, BUF, FSM and the command alone. -/
def Obligations.CommandsReadOnlyMessageState : Prop :=
  ∀ (c : Decoded) (s s' : State), s.v = s'.v → s.len = s'.len → s.buf = s'.buf → s.fsm = s'.fsm →
    ∃ t t', perform c s = .next t ∧ perform c s' = .next t' ∧
      t.rsp = t'.rsp ∧ t.v = t'.v ∧ t.len = t'.len ∧ t.buf = t'.buf ∧ t.fsm = t'.fsm

/-- R12, R26: V, L and the bytes of BUF are seen only through the digest of a FINALIZE or SUM. -/
def Obligations.HiddenStateIsNotRead : Prop :=
  ∀ (c : Decoded) (s s' : State), s.fsm = s'.fsm → s.buf.length = s'.buf.length →
    c ≠ .command .finalize → (∀ bs, c ≠ .command (.sum bs)) →
    ∃ t t', perform c s = .next t ∧ perform c s' = .next t' ∧ t.rsp = t'.rsp ∧ t.fsm = t'.fsm ∧
      t.buf.length = t'.buf.length

/-- R115: the blocks that one command runs CF on, and how many they are. In ACCEPTING they are the command's own: the whole
blocks of BUF ++ bs for WRITE (R74), those of the padding for FINALIZE (R77), both for SUM. In FINALIZED and FAULT there are
none, and RESET, STATUS and words that are no command run CF in no state. -/
def Obligations.WorkBounds : Prop :=
  (∀ (bs : List Byte) (s t : State), s.buf.length < 64 → bs.length ≤ 65535 → exec (.write bs) s = .next t →
    ∃ blocks, WholeBlocks blocks ∧ blocks.length ≤ 1024 ∧ t.v = blocks.foldl cf s.v ∧
      (s.fsm = .accepting → s.buf ++ bs = blocks.flatten ++ t.buf ∧ t.buf.length < 64) ∧
      (s.fsm ≠ .accepting → blocks = [])) ∧
  (∀ s t : State, s.buf.length < 64 → exec .finalize s = .next t →
    ∃ blocks, WholeBlocks blocks ∧ blocks.length ≤ 2 ∧ t.v = blocks.foldl cf s.v ∧
      (s.fsm = .accepting → blocks.flatten = pad s.buf s.len) ∧
      (s.fsm ≠ .accepting → blocks = [])) ∧
  (∀ (bs : List Byte) (s t : State), s.buf.length < 64 → bs.length ≤ 65535 → exec (.sum bs) s = .next t →
    ∃ blocks padding, WholeBlocks blocks ∧ WholeBlocks padding ∧ blocks.length ≤ 1024 ∧ padding.length ≤ 2 ∧
      t.v = (blocks ++ padding).foldl cf s.v ∧
      (s.fsm = .accepting → ∃ tail, s.buf ++ bs = blocks.flatten ++ tail ∧ tail.length < 64 ∧
        padding.flatten = pad tail t.len) ∧
      (s.fsm ≠ .accepting → blocks = [] ∧ padding = [])) ∧
  (∀ s t : State, exec .reset s = .next t → t.v = if s.fsm = .fault then s.v else Config.iv) ∧
  (∀ s t : State, exec .status s = .next t → t.v = s.v) ∧
  (∀ (c : Decoded) (s t : State), (∀ i, c ≠ .command i) → perform c s = .next t → t.v = s.v)

/-! ### Whole messages -/

/-- R86: two WRITE sequences with the same concatenated payload leave the same V, L and BUF. -/
def Obligations.ChunkingInvariance : Prop :=
  ∀ (s : State) (css css' : List (List Byte)), s.fsm = .accepting → s.buf.length < 64 → css.flatten = css'.flatten →
    ∃ t t', execAll (css.map .write) s = .next t ∧ execAll (css'.map .write) s = .next t' ∧
      t.v = t'.v ∧ t.len = t'.len ∧ t.buf = t'.buf ∧ t.fsm = t'.fsm

/-- R85, as R74, R76 and R79 to R82 give it: RESET, WRITEs in any split, and FINALIZE answer with the SM3 digest of the
message: CF folded from IV over the 64-byte blocks of the message with one 0x80 byte, the least number of zero bytes and the
bit length behind it. R85's own formula, read to the letter, holds the message's tail twice; that it stands once is log
entry 18. -/
def Obligations.DigestOfMessage : Prop :=
  ∀ (s : State) (css : List (List Byte)), s.fsm ≠ .fault → css.flatten.length < 2 ^ 61 →
    ∃ (t : State) (blocks : List (List Byte)) (k : Nat) (last : List Byte),
      execAll (.reset :: (css.map .write ++ [.finalize])) s = .next t ∧
      WholeBlocks blocks ∧ blocks.flatten = css.flatten ++ [0x80] ++ List.replicate k 0 ++ last ∧
      k < 64 ∧ (css.flatten.length + 1 + k) % 64 = 56 ∧
      last.length = 8 ∧ last.foldl (fun n b => 256 * n + b.toNat) 0 = 8 * css.flatten.length ∧
      t.rsp = 0x03000000 :: stateWords (blocks.foldl cf Config.iv) ∧ t.fsm = .finalized ∧
      (stateWords (blocks.foldl cf Config.iv)).flatMap be32bytes = sm3 css.flatten

/-- R39, R117: a host that offers the words of any list of commands and takes every response word gets, when all have returned,
the responses that the commands give performed one after the other, and the block has their effect. That is
the end of the run, unless it began in FAULT, which is never a good end. -/
def Obligations.CommandStreamRunsInOrder : Prop :=
  ∀ (is : List Instr) (s : State), s.rstN = true → s.rspReady = true → s.rsp = [] → s.dec = .idle →
    (∀ i ∈ is, i.wellFormed = true) → s.cmdIn = is.flatMap encode →
    ∃ n t u, session (ticks n) s = .next t ∧ t.AllReturned ∧ (s.fsm ≠ .fault → t.RunOver) ∧ execAll is s = .next u ∧
      t.v = u.v ∧ t.len = u.len ∧ t.buf = u.buf ∧ t.fsm = u.fsm ∧ t.rspOut = s.rspOut ++ responsesAll is s

/-- From hardware reset, the words of RESET, of WRITEs in any split and of FINALIZE on the command port bring back on the
response port, as the last eight words of the run, the SM3 digest of the message (R85 in the reading of log entry 18, R86,
R117). -/
def Obligations.DigestAtThePorts : Prop :=
  ∀ css : List (List Byte), (∀ c ∈ css, c.length ≤ 65535) → css.flatten.length < 2 ^ 61 →
    ∃ n t before digest,
      session (.act (.send ((.reset :: (css.map .write ++ [.finalize])).flatMap encode)) :: ticks n) State.reset = .next t ∧
      t.RunOver ∧ t.rspOut = before ++ 0x03000000 :: digest ∧ digest.length = 8 ∧
      digest.flatMap be32bytes = sm3 css.flatten

/-- R57: what each pseudo-instruction expands to, every part encodable, and that each expansion leaves what the written form
would leave without a limit on LEN. The written form is `exec` on a payload of any length (log entry 16); that HASH answers
`sm3`, which R57 does not say, is R85 and R86 in the reading of log entry 18. -/
def Obligations.PseudoInstructionsSound : Prop :=
  (∀ bs : List Byte, ∃ (full : List (List Byte)) (last : List Byte),
    full.flatten ++ last = bs ∧ (∀ p ∈ full, p.length = 65535) ∧ last.length ≤ 65535 ∧ (last = [] → bs = []) ∧
    writeExpansion bs = full.map .write ++ [.write last] ∧ sumExpansion bs = full.map .write ++ [.sum last] ∧
    hashExpansion bs = .reset :: sumExpansion bs) ∧
  (∀ (bs : List Byte) (s : State), s.buf.length < 64 → ∃ t u, execAll (writeExpansion bs) s = .next t ∧
    exec (.write bs) s = .next u ∧ t.v = u.v ∧ t.len = u.len ∧ t.buf = u.buf ∧ t.fsm = u.fsm) ∧
  (∀ (bs : List Byte) (s : State), s.buf.length < 64 → execAll (sumExpansion bs) s = exec (.sum bs) s) ∧
  (∀ (bs : List Byte) (s : State), s.fsm ≠ .fault → bs.length < 2 ^ 61 → ∃ t ds,
    execAll (hashExpansion bs) s = .next t ∧ t.rsp = 0x04000000 :: ds ∧ ds.flatMap be32bytes = sm3 bs) ∧
  nopExpansion.flatMap encode = [0x02000000] ∧
  (∀ s : State, s.buf.length < 64 → ∃ t, execAll nopExpansion s = .next t ∧ t = { s with rsp := t.rsp })

/-- Lines of spec/95_test_vectors.md section 2.3 (R56, R57). -/
def Obligations.SampleLinesAssemble : Prop :=
  assembleText (textOf "WRITE \"abc\"") = some [0x02000003, 0x61626300] ∧
  assembleText (textOf "WRITE 0x00ff10") = some [0x02000003, 0x00ff1000] ∧
  assembleText (textOf "WRITE \"a\\\\b\\\"c\\x80\"") = some [0x02000006, 0x615c6222, 0x63800000] ∧
  assembleText (textOf "SUM \"hello\"") = some [0x04000005, 0x68656c6c, 0x6f000000] ∧
  assembleText (textOf ".word 0xdeadbeef") = some [0xdeadbeef] ∧
  assembleText (textOf "NOP") = some [0x02000000] ∧
  assembleText (textOf "HASH \"abc\"") = some [0x01000000, 0x04000003, 0x61626300]

/-- R93, R94, R117: a state in FAULT is no end of a run, however quiet; a run that is in FAULT stays out of every good end
until hardware reset is driven (what that does to the run is log entry 19); a run that is not in FAULT never gets there. -/
def Obligations.FaultIsNoGoodEnd : Prop :=
  (∀ s : State, s.RunOver ↔ s.cmdIn = [] ∧ s.dec = .idle ∧ s.rsp = [] ∧ s.fsm ≠ .fault) ∧
  (∀ (es : List HostEvent) (s t : State), s.fsm = .fault → s.rstN = true →
    (∀ e ∈ es, e ≠ .act (.driveReset false)) → session es s = .next t → t.fsm = .fault ∧ ¬t.RunOver) ∧
  (∀ (es : List HostEvent) (s t : State), s.fsm ≠ .fault → session es s = .next t → t.fsm ≠ .fault)
end

