-- ==== Sys2Proof/Laws/State.lean ====
section
/-! SUPPORT. One lemma per field for each operation on State, so that no proof unfolds a record update. -/

namespace Sys2Proof.Machine

/-! Answering changes the response port alone (R49). -/

@[simp] theorem respond_v (opc : Byte) (rc : ResponseCode) (data : List Word) (s : State) : (respond opc rc data s).v = s.v := rfl
@[simp] theorem respond_len (opc : Byte) (rc : ResponseCode) (data : List Word) (s : State) : (respond opc rc data s).len = s.len := rfl
@[simp] theorem respond_buf (opc : Byte) (rc : ResponseCode) (data : List Word) (s : State) : (respond opc rc data s).buf = s.buf := rfl
@[simp] theorem respond_fsm (opc : Byte) (rc : ResponseCode) (data : List Word) (s : State) : (respond opc rc data s).fsm = s.fsm := rfl
@[simp] theorem respond_dec (opc : Byte) (rc : ResponseCode) (data : List Word) (s : State) : (respond opc rc data s).dec = s.dec := rfl
@[simp] theorem respond_rsp (opc : Byte) (rc : ResponseCode) (data : List Word) (s : State) : (respond opc rc data s).rsp = statusWord opc rc :: data := rfl
@[simp] theorem respond_rstN (opc : Byte) (rc : ResponseCode) (data : List Word) (s : State) : (respond opc rc data s).rstN = s.rstN := rfl
@[simp] theorem respond_rspReady (opc : Byte) (rc : ResponseCode) (data : List Word) (s : State) : (respond opc rc data s).rspReady = s.rspReady := rfl
@[simp] theorem respond_cmdIn (opc : Byte) (rc : ResponseCode) (data : List Word) (s : State) : (respond opc rc data s).cmdIn = s.cmdIn := rfl
@[simp] theorem respond_rspOut (opc : Byte) (rc : ResponseCode) (data : List Word) (s : State) : (respond opc rc data s).rspOut = s.rspOut := rfl

/-! A refusal changes the response port alone (R89). -/

@[simp] theorem refuse_v (opc : Byte) (rc : ResponseCode) (s : State) : (refuse opc rc s).v = s.v := rfl
@[simp] theorem refuse_len (opc : Byte) (rc : ResponseCode) (s : State) : (refuse opc rc s).len = s.len := rfl
@[simp] theorem refuse_buf (opc : Byte) (rc : ResponseCode) (s : State) : (refuse opc rc s).buf = s.buf := rfl
@[simp] theorem refuse_fsm (opc : Byte) (rc : ResponseCode) (s : State) : (refuse opc rc s).fsm = s.fsm := rfl
@[simp] theorem refuse_dec (opc : Byte) (rc : ResponseCode) (s : State) : (refuse opc rc s).dec = s.dec := rfl
@[simp] theorem refuse_rsp (opc : Byte) (rc : ResponseCode) (s : State) : (refuse opc rc s).rsp = [statusWord opc rc] := rfl
@[simp] theorem refuse_rstN (opc : Byte) (rc : ResponseCode) (s : State) : (refuse opc rc s).rstN = s.rstN := rfl
@[simp] theorem refuse_rspReady (opc : Byte) (rc : ResponseCode) (s : State) : (refuse opc rc s).rspReady = s.rspReady := rfl
@[simp] theorem refuse_cmdIn (opc : Byte) (rc : ResponseCode) (s : State) : (refuse opc rc s).cmdIn = s.cmdIn := rfl
@[simp] theorem refuse_rspOut (opc : Byte) (rc : ResponseCode) (s : State) : (refuse opc rc s).rspOut = s.rspOut := rfl

/-! The fault changes FSM and the response port (R93). -/

@[simp] theorem takeFault_v (opc : Byte) (s : State) : (takeFault opc s).v = s.v := rfl
@[simp] theorem takeFault_len (opc : Byte) (s : State) : (takeFault opc s).len = s.len := rfl
@[simp] theorem takeFault_buf (opc : Byte) (s : State) : (takeFault opc s).buf = s.buf := rfl
@[simp] theorem takeFault_fsm (opc : Byte) (s : State) : (takeFault opc s).fsm = .fault := rfl
@[simp] theorem takeFault_dec (opc : Byte) (s : State) : (takeFault opc s).dec = s.dec := rfl
@[simp] theorem takeFault_rsp (opc : Byte) (s : State) : (takeFault opc s).rsp = [statusWord opc .fault] := rfl
@[simp] theorem takeFault_rstN (opc : Byte) (s : State) : (takeFault opc s).rstN = s.rstN := rfl
@[simp] theorem takeFault_rspReady (opc : Byte) (s : State) : (takeFault opc s).rspReady = s.rspReady := rfl
@[simp] theorem takeFault_cmdIn (opc : Byte) (s : State) : (takeFault opc s).cmdIn = s.cmdIn := rfl
@[simp] theorem takeFault_rspOut (opc : Byte) (s : State) : (takeFault opc s).rspOut = s.rspOut := rfl

/-! Hardware reset (R104) leaves the host its own. -/

@[simp] theorem hardReset_v (s : State) : (hardReset s).v = Config.iv := rfl
@[simp] theorem hardReset_len (s : State) : (hardReset s).len = 0 := rfl
@[simp] theorem hardReset_buf (s : State) : (hardReset s).buf = [] := rfl
@[simp] theorem hardReset_fsm (s : State) : (hardReset s).fsm = .accepting := rfl
@[simp] theorem hardReset_dec (s : State) : (hardReset s).dec = .idle := rfl
@[simp] theorem hardReset_rsp (s : State) : (hardReset s).rsp = [] := rfl
@[simp] theorem hardReset_rstN (s : State) : (hardReset s).rstN = s.rstN := rfl
@[simp] theorem hardReset_rspReady (s : State) : (hardReset s).rspReady = s.rspReady := rfl
@[simp] theorem hardReset_cmdIn (s : State) : (hardReset s).cmdIn = s.cmdIn := rfl
@[simp] theorem hardReset_rspOut (s : State) : (hardReset s).rspOut = s.rspOut := rfl

/-! An accepted payload changes V, L and BUF (R73, R74). -/

@[simp] theorem absorb_v (bs : List Byte) (s : State) : (absorb bs s).v = (absorbed s.v s.buf bs).1 := rfl
@[simp] theorem absorb_len (bs : List Byte) (s : State) : (absorb bs s).len = countBits s.len bs.length := rfl
@[simp] theorem absorb_buf (bs : List Byte) (s : State) : (absorb bs s).buf = (absorbed s.v s.buf bs).2 := rfl
@[simp] theorem absorb_fsm (bs : List Byte) (s : State) : (absorb bs s).fsm = s.fsm := rfl
@[simp] theorem absorb_dec (bs : List Byte) (s : State) : (absorb bs s).dec = s.dec := rfl
@[simp] theorem absorb_rsp (bs : List Byte) (s : State) : (absorb bs s).rsp = s.rsp := rfl
@[simp] theorem absorb_rstN (bs : List Byte) (s : State) : (absorb bs s).rstN = s.rstN := rfl
@[simp] theorem absorb_rspReady (bs : List Byte) (s : State) : (absorb bs s).rspReady = s.rspReady := rfl
@[simp] theorem absorb_cmdIn (bs : List Byte) (s : State) : (absorb bs s).cmdIn = s.cmdIn := rfl
@[simp] theorem absorb_rspOut (bs : List Byte) (s : State) : (absorb bs s).rspOut = s.rspOut := rfl

/-! A response word moves from the port to the host (R103). -/

@[simp] theorem sendResponse_v (w : Word) (ws : List Word) (s : State) : (sendResponse w ws s).v = s.v := rfl
@[simp] theorem sendResponse_len (w : Word) (ws : List Word) (s : State) : (sendResponse w ws s).len = s.len := rfl
@[simp] theorem sendResponse_buf (w : Word) (ws : List Word) (s : State) : (sendResponse w ws s).buf = s.buf := rfl
@[simp] theorem sendResponse_fsm (w : Word) (ws : List Word) (s : State) : (sendResponse w ws s).fsm = s.fsm := rfl
@[simp] theorem sendResponse_dec (w : Word) (ws : List Word) (s : State) : (sendResponse w ws s).dec = s.dec := rfl
@[simp] theorem sendResponse_rsp (w : Word) (ws : List Word) (s : State) : (sendResponse w ws s).rsp = ws := rfl
@[simp] theorem sendResponse_rstN (w : Word) (ws : List Word) (s : State) : (sendResponse w ws s).rstN = s.rstN := rfl
@[simp] theorem sendResponse_rspReady (w : Word) (ws : List Word) (s : State) : (sendResponse w ws s).rspReady = s.rspReady := rfl
@[simp] theorem sendResponse_cmdIn (w : Word) (ws : List Word) (s : State) : (sendResponse w ws s).cmdIn = s.cmdIn := rfl
@[simp] theorem sendResponse_rspOut (w : Word) (ws : List Word) (s : State) : (sendResponse w ws s).rspOut = s.rspOut ++ [w] := rfl

/-- Performing the decoder's result is performing the instruction it holds (R54). -/
@[simp] theorem perform_command (i : Instr) (s : State) : perform (.command i) s = exec i s := rfl

@[simp] theorem perform_malformed (opc : Byte) (s : State) : perform (.malformed opc) s = execMalformed opc s := rfl

@[simp] theorem perform_illegal (opc : Byte) (s : State) : perform (.illegal opc) s = execIllegal opc s := rfl

@[simp] theorem exec_reset (s : State) : exec .reset s = execReset s := rfl

@[simp] theorem exec_write (bs : List Byte) (s : State) : exec (.write bs) s = execWrite bs s := rfl

@[simp] theorem exec_finalize (s : State) : exec .finalize s = execFinalize s := rfl

@[simp] theorem exec_sum (bs : List Byte) (s : State) : exec (.sum bs) s = execSum bs s := rfl

@[simp] theorem exec_status (s : State) : exec .status s = execStatus s := rfl

end Sys2Proof.Machine
end

