-- ==== Sys2Proof/Laws/Commands.lean ====
section
/-! SUPPORT. What each command can do, said once: the next state by the control state it is performed in
(spec/41_streaming.md R80 to R84, spec/60_exceptions.md R91). -/

namespace Sys2Proof.Machine

theorem execReset_cases (s : State) :
    (s.fsm = .fault ∧ execReset s = .next (refuse opcReset .fault s)) ∨
    (s.fsm ≠ .fault ∧ execReset s =
      .next (respond opcReset .ok [] { s with v := Config.iv, len := 0, buf := [], fsm := .accepting })) := by
  unfold execReset
  cases s.fsm <;> simp

theorem execWrite_cases (bs : List Byte) (s : State) :
    (s.fsm = .fault ∧ execWrite bs s = .next (refuse opcWrite .fault s)) ∨
    (s.fsm = .finalized ∧ bs = [] ∧ execWrite bs s = .next (respond opcWrite .ok [0] s)) ∨
    (s.fsm = .finalized ∧ bs ≠ [] ∧ execWrite bs s = .next (refuse opcWrite .finalized s)) ∨
    (s.fsm = .accepting ∧
      execWrite bs s = .next (respond opcWrite .ok [BitVec.ofNat 32 bs.length] (absorb bs s))) := by
  unfold execWrite
  cases s.fsm <;> cases bs <;> simp

theorem execFinalize_cases (s : State) :
    (s.fsm = .fault ∧ execFinalize s = .next (refuse opcFinalize .fault s)) ∨
    (s.fsm = .finalized ∧ execFinalize s = .next (respond opcFinalize .ok (stateWords s.v) s)) ∨
    (s.fsm = .accepting ∧ execFinalize s = .next (finish opcFinalize s)) := by
  unfold execFinalize
  cases s.fsm <;> simp

theorem execSum_cases (bs : List Byte) (s : State) :
    (s.fsm = .fault ∧ execSum bs s = .next (refuse opcSum .fault s)) ∨
    (s.fsm = .finalized ∧ bs = [] ∧ execSum bs s = .next (respond opcSum .ok (stateWords s.v) s)) ∨
    (s.fsm = .finalized ∧ bs ≠ [] ∧ execSum bs s = .next (refuse opcSum .finalized s)) ∨
    (s.fsm = .accepting ∧ execSum bs s = .next (finish opcSum (absorb bs s))) := by
  unfold execSum
  cases s.fsm <;> cases bs <;> simp

theorem execIllegal_cases (opc : Byte) (s : State) :
    (s.fsm = .fault ∧ execIllegal opc s = .next (refuse opc .fault s)) ∨
    (s.fsm ≠ .fault ∧ execIllegal opc s = .next (refuse opc .illegal s)) := by
  unfold execIllegal
  cases s.fsm <;> simp

theorem execMalformed_cases (opc : Byte) (s : State) :
    (s.fsm = .fault ∧ execMalformed opc s = .next (refuse opc .fault s)) ∨
    (s.fsm ≠ .fault ∧ execMalformed opc s = .next (refuse opc .illegal s)) := by
  unfold execMalformed
  cases s.fsm <;> simp

end Sys2Proof.Machine
end

