-- ==== Sys2Proof/Laws/Compression.lean ====
section
/-! SUPPORT. What the operations of the compression engine are and can do (spec/40_compression.md), each said once. -/

namespace Sys2Proof.Machine

/-- The rotation of R58 is the library's. -/
theorem rotl_eq_rotateLeft (x : Word) (n : Nat) : rotl x n = x.rotateLeft n := by
  unfold rotl
  simp only
  split
  · rename_i h
    rw [← BitVec.rotateLeft_mod_eq_rotateLeft, h]
    apply BitVec.eq_of_getLsbD_eq
    intro i hi
    simp [hi]
  · rw [← BitVec.rotateLeft_mod_eq_rotateLeft]
    simp [BitVec.rotateLeft, BitVec.rotateLeftAux]

/-- Rotation moves bit `i` to place `(i + n) mod 32` (R58). -/
theorem rotl_getLsbD (x : Word) (n i : Nat) (hi : i < 32) : (rotl x n).getLsbD ((i + n) % 32) = x.getLsbD i := by
  rw [rotl_eq_rotateLeft, BitVec.getLsbD_rotateLeft]
  by_cases h : (i + n) % 32 < n % 32
  · simp only [h, decide_true, cond_true]
    congr 1
    omega
  · have hlt : (i + n) % 32 < 32 := by omega
    simp only [h, decide_false, cond_false, hlt, decide_true, Bool.true_and]
    congr 1
    omega

/-- The words of `4 * n` bytes: their number, and each of them (R65). -/
theorem blockWords_spec (n : Nat) (bs : List Byte) (h : bs.length = 4 * n) :
    (blockWords bs).length = n ∧ ∀ i, i < n → (blockWords bs).getD i 0 =
      be32 (bs.getD (4 * i) 0) (bs.getD (4 * i + 1) 0) (bs.getD (4 * i + 2) 0) (bs.getD (4 * i + 3) 0) := by
  induction n generalizing bs with
  | zero =>
    have := List.length_eq_zero_iff.1 h
    subst this
    simp [blockWords]
  | succ n ih =>
    match bs, h with
    | b0 :: b1 :: b2 :: b3 :: rest, h =>
      obtain ⟨h1, h2⟩ := ih rest (by simp at h; omega)
      refine ⟨by simp [blockWords, h1], fun i hi => ?_⟩
      cases i with
      | zero => rfl
      | succ i =>
        have := h2 i (by omega)
        simpa [blockWords, show 4 * (i + 1) = 4 * i + 4 by omega] using this

/-- Expanding further keeps the words there are (R66). -/
theorem expandMore_keeps (n : Nat) (ws : List Word) (i : Nat) (hi : i < ws.length) :
    (expandMore n ws).getD i 0 = ws.getD i 0 := by
  induction n generalizing ws with
  | zero => rfl
  | succ n ih =>
    rw [expandMore, ih _ (by rw [List.length_append]; omega)]
    simp [List.getElem?_append_left hi]

@[simp] theorem expandMore_length (n : Nat) (ws : List Word) : (expandMore n ws).length = ws.length + n := by
  induction n generalizing ws with
  | zero => rfl
  | succ n ih =>
    rw [expandMore, ih, List.length_append, List.length_singleton]
    omega

/-- The rounds as a fold over their numbers (R69). -/
theorem compressRounds_eq_foldl (ws : List Word) (n j : Nat) (r : HashState) :
    compressRounds ws n j r =
      (List.range' j n).foldl (fun r j => compressRound j (wordW ws j) (wordW' ws j) r) r := by
  induction n generalizing j r with
  | zero => rfl
  | succ n ih => rw [compressRounds, ih, List.range'_succ, List.foldl_cons]

end Sys2Proof.Machine
end

