-- ==== Sys2Proof/Laws/Flags.lean ====
section
/-! SUPPORT. The status words as numbers (spec/30_encoding.md R49, R50). -/

namespace Sys2Proof.Machine

/-- A status word is the OPC above 24 bits that hold the code alone. -/
theorem statusWord_eq (opc : Byte) (rc : ResponseCode) : statusWord opc rc = opc ++ (codeOf rc).setWidth 24 := by
  revert opc
  cases rc <;> decide

@[simp] theorem statusWord_reset_ok : statusWord opcReset .ok = 0x01000000 := by decide
@[simp] theorem statusWord_reset_fault : statusWord opcReset .fault = 0x01000003 := by decide
@[simp] theorem statusWord_write_ok : statusWord opcWrite .ok = 0x02000000 := by decide
@[simp] theorem statusWord_write_finalized : statusWord opcWrite .finalized = 0x02000002 := by decide
@[simp] theorem statusWord_write_fault : statusWord opcWrite .fault = 0x02000003 := by decide
@[simp] theorem statusWord_finalize_ok : statusWord opcFinalize .ok = 0x03000000 := by decide
@[simp] theorem statusWord_finalize_fault : statusWord opcFinalize .fault = 0x03000003 := by decide
@[simp] theorem statusWord_sum_ok : statusWord opcSum .ok = 0x04000000 := by decide
@[simp] theorem statusWord_sum_finalized : statusWord opcSum .finalized = 0x04000002 := by decide
@[simp] theorem statusWord_sum_fault : statusWord opcSum .fault = 0x04000003 := by decide
@[simp] theorem statusWord_status_ok : statusWord opcStatus .ok = 0x05000000 := by decide

/-- The low byte of a status word is the response code (R49). -/
theorem statusWord_code (opc : Byte) (rc : ResponseCode) : (statusWord opc rc).extractLsb' 0 8 = codeOf rc := by
  revert opc
  cases rc <;> decide

/-- A status word says OK exactly when its code is OK. -/
theorem codeOf_eq_zero (rc : ResponseCode) : codeOf rc = 0x00 ↔ rc = .ok := by
  cases rc <;> decide

end Sys2Proof.Machine
end

