-- ==== Sys2Proof/Laws/Operands.lean ====
section
/-! SUPPORT. The packing of bytes into words and back, and the fields of a header (spec/30_encoding.md R45 to R47). -/

namespace Sys2Proof.Machine

@[simp] theorem be32bytes_length (w : Word) : (be32bytes w).length = 4 := rfl

@[simp] theorem be64bytes_length (x : Length) : (be64bytes x).length = 8 := rfl

/-- The bytes of a word, put together again. -/
theorem be32_of_bytes (w : Word) :
    be32 (w.extractLsb' 24 8) (w.extractLsb' 16 8) (w.extractLsb' 8 8) (w.extractLsb' 0 8) = w := by
  apply BitVec.eq_of_getLsbD_eq
  intro i hi
  simp only [be32, BitVec.getLsbD_append, BitVec.getLsbD_extractLsb']
  by_cases h1 : i < 8
  · simp [h1]
  by_cases h2 : i - 8 < 8
  · simp [h1, h2, show 8 + (i - 8) = i by omega]
  by_cases h3 : i - 8 - 8 < 8
  · simp [h1, h2, h3, show 16 + (i - 8 - 8) = i by omega]
  · simp [h1, h2, h3, show 24 + (i - 8 - 8 - 8) = i by omega, show i - 8 - 8 - 8 < 8 by omega]

/-- A word put together from four bytes gives them back. -/
@[simp] theorem be32bytes_be32 (b0 b1 b2 b3 : Byte) : be32bytes (be32 b0 b1 b2 b3) = [b0, b1, b2, b3] := by
  simp only [be32bytes, be32, List.cons.injEq, and_true]
  refine ⟨?_, ?_, ?_, ?_⟩ <;> apply BitVec.eq_of_getLsbD_eq <;> intro i hi <;>
    simp only [BitVec.getLsbD_extractLsb', BitVec.getLsbD_append] <;> grind

theorem flatMap_be32bytes_length (ps : List Word) : (ps.flatMap be32bytes).length = 4 * ps.length := by
  induction ps with
  | nil => rfl
  | cons p ps ih => simp [ih]; omega

/-- Packing writes `ceil(len / 4)` words (R46). -/
theorem packWords_length (bs : List Byte) : (packWords bs).length = (bs.length + 3) / 4 := by
  induction bs using packWords.induct with
  | case1 => rfl
  | case2 => simp [packWords]
  | case3 => simp [packWords]
  | case4 => simp [packWords]
  | case5 b0 b1 b2 b3 bs ih => simp [packWords, ih]; omega

/-- The lanes of packed words begin with the bytes packed. -/
theorem packWords_lanes (bs : List Byte) : ∃ zeros, (packWords bs).flatMap be32bytes = bs ++ zeros := by
  induction bs using packWords.induct with
  | case1 => exact ⟨[], rfl⟩
  | case2 b0 => exact ⟨[0, 0, 0], by simp [packWords]⟩
  | case3 b0 b1 => exact ⟨[0, 0], by simp [packWords]⟩
  | case4 b0 b1 b2 => exact ⟨[0], by simp [packWords]⟩
  | case5 b0 b1 b2 b3 bs ih =>
    obtain ⟨z, hz⟩ := ih
    exact ⟨z, by simp [packWords, hz]⟩

/-- Payload assembly reads back what was packed, whatever the unused lanes hold (R47). -/
theorem payloadBytes_packWords (bs : List Byte) : payloadBytes bs.length (packWords bs) = bs := by
  obtain ⟨z, hz⟩ := packWords_lanes bs
  simp [payloadBytes, hz]

@[simp] theorem headerOpc_header (opc rsvd : Byte) (len : BitVec 16) : headerOpc (header opc rsvd len) = opc := by
  apply BitVec.eq_of_getLsbD_eq
  intro i hi
  simp only [headerOpc, header, BitVec.getLsbD_extractLsb', BitVec.getLsbD_append]
  grind

@[simp] theorem headerRsvd_header (opc rsvd : Byte) (len : BitVec 16) : headerRsvd (header opc rsvd len) = rsvd := by
  apply BitVec.eq_of_getLsbD_eq
  intro i hi
  simp only [headerRsvd, header, BitVec.getLsbD_extractLsb', BitVec.getLsbD_append]
  grind

@[simp] theorem headerLen_header (opc rsvd : Byte) (len : BitVec 16) :
    headerLen (header opc rsvd len) = len.toNat := by
  have : (header opc rsvd len).extractLsb' 0 16 = len := by
    apply BitVec.eq_of_getLsbD_eq
    intro i hi
    simp only [header, BitVec.getLsbD_extractLsb', BitVec.getLsbD_append]
    grind
  simp [headerLen, this]

theorem headerLen_lt (h : Word) : headerLen h < 65536 := by
  have := (h.extractLsb' 0 16).isLt
  simpa [headerLen] using this

/-- A header announces at most 16384 payload words (R46). -/
theorem payloadWords_le (h : Word) : payloadWords h ≤ 16384 := by
  have := headerLen_lt h
  unfold payloadWords
  split <;> omega

end Sys2Proof.Machine
end

