-- ==== Sys2Proof/Laws/PerInstr.lean ====
section
/-! SUPPORT. Facts about each command as syntax, one lemma per constructor: the fields its header carries and the payload its
words carry (spec/30_encoding.md R45 to R47, R56). -/

namespace Sys2Proof

open Machine

/-- The words of a command with an encoding: its header has its OPC, RSVD 0 and its payload's length as LEN, announces as
many words as follow, and those carry its payload. -/
def Laws.Encoding.Statement (i : Instr) : Prop :=
  i.wellFormed = true →
    ∃ h ps, encode i = h :: ps ∧ headerOpc h = i.opc ∧ headerRsvd h = 0 ∧ headerLen h = i.payload.length ∧
      payloadWords h = ps.length ∧ payloadBytes (headerLen h) ps = i.payload

/-- The length of a well-formed payload fits the LEN field. -/
theorem payload_length_lt {i : Instr} (h : i.wellFormed = true) : i.payload.length < 2 ^ 16 := by
  have : i.payload.length ≤ 65535 := of_decide_eq_true h
  omega

theorem Laws.Encoding.reset : Laws.Encoding.Statement .reset :=
  fun _ => ⟨_, _, rfl, by decide⟩

theorem Laws.Encoding.write (bs : List Byte) : Laws.Encoding.Statement (.write bs) := fun h => by
  have hl := payload_length_lt h
  have hm : bs.length % 65536 = bs.length := Nat.mod_eq_of_lt hl
  refine ⟨_, _, rfl, ?_⟩
  simp [Instr.opc, Instr.payload, payloadWords, packWords_length, payloadBytes_packWords, hm, opcWrite]

theorem Laws.Encoding.finalize : Laws.Encoding.Statement .finalize :=
  fun _ => ⟨_, _, rfl, by decide⟩

theorem Laws.Encoding.sum (bs : List Byte) : Laws.Encoding.Statement (.sum bs) := fun h => by
  have hl := payload_length_lt h
  have hm : bs.length % 65536 = bs.length := Nat.mod_eq_of_lt hl
  refine ⟨_, _, rfl, ?_⟩
  simp [Instr.opc, Instr.payload, payloadWords, packWords_length, payloadBytes_packWords, hm, opcSum]

theorem Laws.Encoding.status : Laws.Encoding.Statement .status :=
  fun _ => ⟨_, _, rfl, by decide⟩

end Sys2Proof
end

