-- ==== Sys2Proof/Laws/Step.lean ====
section
/-! SUPPORT. What one step can do, said once (spec/70_reset_and_hazards.md R103, R104). -/

namespace Sys2Proof.Machine

/-- A step that answers a next state is a reset edge, a response word moving, an idle edge, a command word that leaves the
command incomplete, or the last word of a command. -/
theorem step_cases {s t : State} (h : step s = .next t) :
    (s.rstN = false ∧ t = hardReset s) ∨
    (s.rstN = true ∧ ∃ w ws, s.rsp = w :: ws ∧ s.rspReady = true ∧ t = sendResponse w ws s) ∨
    (s.rstN = true ∧ s.rsp = [] ∧ s.cmdIn = [] ∧ s.dec = .idle ∧ t = s) ∨
    (s.rstN = true ∧ s.rsp = [] ∧ ∃ w ws d, s.cmdIn = w :: ws ∧ receiveWord s.dec w = .waiting d ∧
      t = { s with dec := d, cmdIn := ws }) ∨
    (s.rstN = true ∧ s.rsp = [] ∧ ∃ w ws c, s.cmdIn = w :: ws ∧ receiveWord s.dec w = .complete c ∧
      perform c { s with dec := .idle, cmdIn := ws } = .next t) := by
  unfold step edge at h
  split at h
  · rename_i hr
    split at h
    · rename_i w ws hrsp
      split at h
      · rename_i hready
        cases h
        exact .inr (.inl ⟨hr, w, ws, hrsp, hready, rfl⟩)
      · cases h
    · rename_i hrsp
      split at h
      · rename_i w ws hcmd
        unfold takeCommandWord at h
        split at h
        · rename_i d hd
          cases h
          exact .inr (.inr (.inr (.inl ⟨hr, hrsp, w, ws, d, hcmd, hd, rfl⟩)))
        · rename_i c hc
          exact .inr (.inr (.inr (.inr ⟨hr, hrsp, w, ws, c, hcmd, hc, h⟩)))
      · rename_i hcmd
        unfold awaitWord at h
        split at h
        · rename_i hd
          cases h
          exact .inr (.inr (.inl ⟨hr, hrsp, hcmd, hd, rfl⟩))
        · cases h
  · rename_i hr
    cases h
    exact .inl ⟨by simpa using hr, rfl⟩

/-- A sound decoder stays sound while it waits for words (R23). -/
theorem receiveWord_sound {d d' : Decoder} {w : Word} (hs : d.Sound) (h : receiveWord d w = .waiting d') : d'.Sound := by
  cases d with
  | idle =>
    simp only [receiveWord] at h
    split at h
    · cases h
    · rename_i hw
      cases h
      simp [Decoder.Sound]
      omega
  | collecting hd n bs =>
    obtain ⟨h1, h2, h3⟩ := hs
    simp only [receiveWord] at h
    split at h
    · cases h
    · rename_i hn
      cases h
      have hl : 4 * payloadWords hd ≤ headerLen hd + 3 := by
        unfold payloadWords
        split <;> omega
      refine ⟨by omega, by omega, ?_⟩
      simp only [List.length_take, List.length_append, h3, be32bytes, List.length_cons, List.length_nil]
      omega

end Sys2Proof.Machine
end

