-- ==== Sys2Proof/Laws/Run.lean ====
section
/-! SUPPORT. Runs, taken apart event by event (spec/70_reset_and_hazards.md R117), and commands one by one. -/

namespace Sys2Proof.Machine

@[simp] theorem session_nil (s : State) : session [] s = .next s := rfl

theorem ticks_succ (n : Nat) : ticks (n + 1) = .tick :: ticks n := rfl

theorem ticks_add (m n : Nat) : ticks (m + n) = ticks m ++ ticks n := List.replicate_add ..

/-- A run whose first edge has a next state goes on from there. -/
theorem session_tick_of_next {s t : State} (es : List HostEvent) (h : step s = .next t) :
    session (.tick :: es) s = session es t := by
  rw [session, h]

/-- A run whose first act has a next state goes on from there. -/
theorem session_act_of_next {a : HostAct} {s t : State} (es : List HostEvent) (h : hostAct a s = .next t) :
    session (.act a :: es) s = session es t := by
  rw [session, h]

/-- A run of one edge is one step. -/
theorem session_one_tick (s : State) : session (ticks 1) s = step s := by
  rw [ticks_succ, session]
  cases step s <;> rfl

/-- A run that reaches a state goes on from it. -/
theorem session_append {es : List HostEvent} {s t : State} (es' : List HostEvent) (h : session es s = .next t) :
    session (es ++ es') s = session es' t := by
  induction es generalizing s with
  | nil =>
    cases h
    rfl
  | cons e es ih =>
    cases e with
    | act a =>
      rw [session] at h
      rw [List.cons_append, session]
      cases ha : hostAct a s with
      | next u => exact ih (by simpa only [ha] using h)
      | fault r => simp [ha] at h
      | refused r => simp [ha] at h
    | tick =>
      rw [session] at h
      rw [List.cons_append, session]
      cases hs : step s with
      | next u => exact ih (by simpa only [hs] using h)
      | fault r => simp [hs] at h
      | refused r => simp [hs] at h

/-- A command that has a next state is followed by the commands after it. -/
theorem execAll_cons_of_next {i : Instr} {s t : State} (is : List Instr) (h : exec i s = .next t) :
    execAll (i :: is) s = execAll is t := by
  rw [execAll, h]

/-- A sequence of commands that reaches a state goes on from it. -/
theorem execAll_append {is : List Instr} {s t : State} (js : List Instr) (h : execAll is s = .next t) :
    execAll (is ++ js) s = execAll js t := by
  induction is generalizing s with
  | nil =>
    cases h
    rfl
  | cons i is ih =>
    rw [execAll] at h
    rw [List.cons_append, execAll]
    cases hi : exec i s with
    | next u => exact ih (by simpa only [hi] using h)
    | fault r => simp [hi] at h
    | refused r => simp [hi] at h

end Sys2Proof.Machine
end

