-- ==== Sys2Proof/Laws/Streaming.lean ====
section
/-! SUPPORT. What the block streamer's procedures can do (spec/41_streaming.md R74, R76, R79), each said once. -/

namespace Sys2Proof.Machine

theorem wholeBlocks_nil : WholeBlocks [] := by simp [WholeBlocks]

theorem wholeBlocks_cons {b : List Byte} {blocks : List (List Byte)} :
    WholeBlocks (b :: blocks) ↔ b.length = 64 ∧ WholeBlocks blocks := by
  simp [WholeBlocks]

theorem wholeBlocks_append {xs ys : List (List Byte)} :
    WholeBlocks (xs ++ ys) ↔ WholeBlocks xs ∧ WholeBlocks ys := by
  simp [WholeBlocks, or_imp, forall_and]

theorem flatten_length {blocks : List (List Byte)} (h : WholeBlocks blocks) :
    blocks.flatten.length = 64 * blocks.length := by
  induction blocks with
  | nil => rfl
  | cons b bs ih =>
    obtain ⟨hb, hbs⟩ := wholeBlocks_cons.1 h
    simp [ih hbs, hb]
    omega

/-- A byte sequence is cut into whole blocks and a short rest in one way only. -/
theorem wholeBlocks_unique {xs ys : List (List Byte)} {a b : List Byte} (hx : WholeBlocks xs) (hy : WholeBlocks ys)
    (ha : a.length < 64) (hb : b.length < 64) (h : xs.flatten ++ a = ys.flatten ++ b) : xs = ys ∧ a = b := by
  induction xs generalizing ys with
  | nil =>
    cases ys with
    | nil => simpa using h
    | cons y ys =>
      have := congrArg List.length h
      obtain ⟨hy0, hys⟩ := wholeBlocks_cons.1 hy
      simp [hy0] at this
      omega
  | cons x xs ih =>
    obtain ⟨hx0, hxs⟩ := wholeBlocks_cons.1 hx
    cases ys with
    | nil =>
      have := congrArg List.length h
      simp [hx0] at this
      omega
    | cons y ys =>
      obtain ⟨hy0, hys⟩ := wholeBlocks_cons.1 hy
      simp only [List.flatten_cons, List.append_assoc] at h
      obtain ⟨h1, h2⟩ := List.append_inj h (hx0.trans hy0.symm)
      obtain ⟨h3, h4⟩ := ih hxs hys h2
      exact ⟨by rw [h1, h3], h4⟩

/-- The absorb loop with enough turns: the blocks it compresses, in order, and what it leaves (R74). -/
theorem absorbLoop_blocks (n : Nat) (v : HashState) (buf : List Byte) (hn : buf.length / 64 ≤ n) :
    ∃ blocks, WholeBlocks blocks ∧ buf = blocks.flatten ++ (absorbLoop n v buf).2 ∧
      (absorbLoop n v buf).2.length < 64 ∧ (absorbLoop n v buf).1 = blocks.foldl cf v := by
  induction n generalizing v buf with
  | zero => exact ⟨[], wholeBlocks_nil, rfl, by simp [absorbLoop]; omega, rfl⟩
  | succ n ih =>
    by_cases h : buf.length < Config.blockBytes
    · exact ⟨[], wholeBlocks_nil, by simp [absorbLoop, h], by rw [absorbLoop, if_pos h]; exact h, by simp [absorbLoop, h]⟩
    · have h64 : 64 ≤ buf.length := Nat.le_of_not_lt h
      obtain ⟨blocks, h1, h2, h3, h4⟩ := ih (cf v (buf.take 64)) (buf.drop 64) (by simp; omega)
      refine ⟨buf.take 64 :: blocks, wholeBlocks_cons.2 ⟨by simp; omega, h1⟩, ?_, ?_, ?_⟩
      · simp only [absorbLoop, if_neg h, List.flatten_cons, List.append_assoc]
        rw [show Config.blockBytes = 64 from rfl, ← h2, List.take_append_drop]
      · rw [absorbLoop, if_neg h]
        exact h3
      · rw [absorbLoop, if_neg h]
        exact h4

/-- Compressing `n` blocks of a sequence that has exactly `n` (R79). -/
theorem compressBlocks_blocks (n : Nat) (v : HashState) (p : List Byte) (hp : p.length = 64 * n) :
    ∃ blocks, WholeBlocks blocks ∧ blocks.flatten = p ∧ compressBlocks n v p = blocks.foldl cf v ∧
      blocks.length = n := by
  induction n generalizing v p with
  | zero => exact ⟨[], wholeBlocks_nil, (List.length_eq_zero_iff.1 hp).symm, rfl, rfl⟩
  | succ n ih =>
    obtain ⟨blocks, h1, h2, h3, h4⟩ := ih (cf v (p.take 64)) (p.drop 64) (by simp; omega)
    exact ⟨p.take 64 :: blocks, wholeBlocks_cons.2 ⟨by simp; omega, h1⟩, by simp [h2], h3, by simp [h4]⟩

/-- The number of zero bytes of the padding brings its length to 56 modulo 64 (R76). -/
theorem padZeros_spec (n : Nat) : padZeros n < 64 ∧ (n + 1 + padZeros n) % 64 = 56 := by
  unfold padZeros
  omega

theorem pad_length_eq (buf : List Byte) (len : Length) :
    (pad buf len).length = buf.length + padZeros buf.length + 9 := by
  simp [pad, be64bytes_length]
  omega

/-- `finish` takes the fault or answers with the digest words, by the padding invariant alone (R79, R93). -/
theorem finish_cases (opc : Byte) (s : State) :
    ((pad s.buf s.len).length % 64 ≠ 0 ∧ finish opc s = takeFault opc s) ∨
    ((pad s.buf s.len).length % 64 = 0 ∧ finish opc s =
      respond opc .ok (stateWords (compressAll s.v (pad s.buf s.len)))
        { s with v := compressAll s.v (pad s.buf s.len), buf := [], fsm := .finalized }) := by
  by_cases h : (pad s.buf s.len).length % 64 = 0
  · exact .inr ⟨h, if_neg (not_not.2 h)⟩
  · exact .inl ⟨h, if_pos h⟩

@[simp] theorem stateWords_length (v : HashState) : (stateWords v).length = 8 := rfl

/-- V is its eight words. -/
theorem stateWords_injective {v v' : HashState} (h : stateWords v = stateWords v') : v = v' := by
  cases v
  cases v'
  simpa [stateWords] using h

end Sys2Proof.Machine
end

