-- ==== Sys2Proof/Tests/Slice0.lean ====
section
/-! SUPPORT. The model's own tests: well-formedness, decoding of words written out from the spec's encoding, one step per
instruction with expected values from spec/95_test_vectors.md, and witnesses that the hypotheses of the obligations can be met.
Each test names the section its expected value comes from. -/

namespace Sys2Proof.Tests

open Sys2Proof Sys2Proof.Machine

/-- The state a step or a command leaves, if it leaves one. -/
def left (o : Host.Outcome State Fault Refusal) : Option State :=
  match o with
  | .next s => some s
  | .fault _ => none
  | .refused _ => none

/-- The response a step or a command leaves on the response port. -/
def response (o : Host.Outcome State Fault Refusal) : Option (List Word) := (left o).map State.rsp

def abc : List Byte := [0x61, 0x62, 0x63]

/-- Start state A of section 4.3: after RESET and WRITE "abc". -/
def stateA : State := { State.reset with len := 24, buf := abc }

/-- Start state F of section 4.3: after RESET and SUM "abc". -/
def stateF : State :=
  { State.reset with
    v := ⟨0x66c7f0f4, 0x62eeedd9, 0xd1f2d46b, 0xdc10e4e2, 0x4167c487, 0x5cf2f7a2, 0x297da02b, 0x8f4ba8e0⟩
    len := 24
    fsm := .finalized }

/-- Start state X of section 4.3: state A in FAULT. -/
def stateX : State := { stateA with fsm := .fault }

/-- A state to which the host offers words. -/
def offered (ws : List Word) (s : State) : State := { s with cmdIn := ws }

/-! ### WellFormed: what it refuses and the boundary it lets through (R7, R45) -/

theorem zeros_wellFormed (n : Nat) :
    (Instr.write (List.replicate n 0)).wellFormed = decide (n ≤ 65535) ∧
    (Instr.sum (List.replicate n 0)).wellFormed = decide (n ≤ 65535) := by
  simp [Instr.wellFormed, Instr.payload, Config.maxLen]

theorem test_write_too_long : (Instr.write (List.replicate 65536 0)).wellFormed = false :=
  (zeros_wellFormed 65536).1.trans (by decide)

theorem test_sum_too_long : (Instr.sum (List.replicate 65536 0)).wellFormed = false :=
  (zeros_wellFormed 65536).2.trans (by decide)

theorem test_longest_payload :
    (Instr.write (List.replicate 65535 0)).wellFormed = true ∧ (Instr.sum (List.replicate 65535 0)).wellFormed = true :=
  ⟨(zeros_wellFormed 65535).1.trans (by decide), (zeros_wellFormed 65535).2.trans (by decide)⟩

/-! ### Decoding, each header written out bit by bit: OPC 31:24, RSVD 23:16, LEN 15:0 (R45, R53) -/

theorem test_decode_reset : decode [0b00000001000000000000000000000000] = some (.command .reset, []) := by decide

theorem test_decode_write : decode [0b00000010000000000000000000000101, 0x61626364, 0x65000000] =
    some (.command (.write [0x61, 0x62, 0x63, 0x64, 0x65]), []) := by decide

theorem test_decode_finalize : decode [0b00000011000000000000000000000000] = some (.command .finalize, []) := by decide

theorem test_decode_sum : decode [0b00000100000000000000000000000011, 0x616263ff] = some (.command (.sum abc), []) := by
  decide

theorem test_decode_status : decode [0b00000101000000000000000000000000] = some (.command .status, []) := by decide

/-- Section 2.1: one of each refused kind, the payload of a malformed SUM taken. -/
theorem test_decode_refused :
    decode [0x06000000, 1] = some (.illegal 0x06, [1]) ∧ decode [0x01010000, 1] = some (.malformed 0x01, [1]) ∧
    decode [0x03000004, 1] = some (.malformed 0x03, [1]) ∧
    decode [0x04ff0005, 0x11223344, 0x55000000, 1] = some (.malformed 0x04, [1]) := by decide

/-- Section 2.2: byte lanes. -/
theorem test_payload_lanes :
    payloadBytes 5 [0x61626364, 0x65aabbcc] = [0x61, 0x62, 0x63, 0x64, 0x65] ∧
    payloadBytes 8 [0x00000001, 0x80000000] = [0, 0, 0, 1, 0x80, 0, 0, 0] := by decide

/-- R56: the words of `WRITE "abc"`. -/
theorem test_encode_write : encode (.write abc) = [0x02000003, 0x61626300] := by decide

/-- The opcode table's numbering: the header in bits 31 to 0, payload words above it. -/
theorem test_table_words :
    decodeTableWord 64 0x6162630002000003 = some (.write abc) ∧ decodeTableWord 32 0x04000005 = some (.sum [0, 0, 0, 0, 0]) ∧
    decodeTableWord 32 0x05000001 = none := by decide

/-- An instruction placed where the next step takes it is run by that step, a payload word behind its header included. -/
theorem test_fetched_word_runs :
    step (State.reset.withFetchWord 32 0x03000000) = exec .finalize State.reset ∧
    left (step (stateA.withFetchWord 64 0x6400000002000001)) =
      left (exec (.write [0x64]) stateA) := by
  constructor
  · rfl
  · decide

/-! ### One step per instruction -/

/-- Section 4.3, row A RESET. -/
theorem test_reset : left (exec .reset stateA) = some { State.reset with rsp := [0x01000000] } := by decide

/-- R107: RESET in FAULT. -/
theorem test_reset_in_fault : left (exec .reset stateX) = some { stateX with rsp := [0x01000003] } := by decide

/-- Section 4.3, row A WRITE "d"; section 4.5, the wrap of L is `test_length_wraps`. -/
theorem test_write : left (exec (.write [0x64]) stateA) =
    some { stateA with len := 32, buf := [0x61, 0x62, 0x63, 0x64], rsp := [0x02000000, 1] } := by decide

/-- R81's example (program L3.3): 64 bytes compress one block. -/
theorem test_write_block : left (exec (.write (List.replicate 16 [0x61, 0x62, 0x63, 0x64]).flatten) State.reset) =
    some { State.reset with
      v := ⟨0x5950de81, 0x468664eb, 0x42fd4c86, 0x1e7ca00a, 0xc0a5910b, 0xae9a55ea, 0x1adb8d17, 0x763ca222⟩
      len := 512
      rsp := [0x02000000, 0x40] } := by decide +kernel

/-- Section 4.3, row A FINALIZE. -/
theorem test_finalize : left (exec .finalize stateA) = some { stateF with rsp :=
    [0x03000000, 0x66c7f0f4, 0x62eeedd9, 0xd1f2d46b, 0xdc10e4e2, 0x4167c487, 0x5cf2f7a2, 0x297da02b, 0x8f4ba8e0] } := by
  decide +kernel

/-- Section 4.2, k = 56: two padding blocks. -/
theorem test_finalize_two_blocks :
    response (exec .finalize { State.reset with len := 448, buf := List.replicate 56 0x61 }) = some
      [0x03000000, 0xba00ebed, 0xaab54065, 0xa5fd4f9f, 0x56326016, 0x203166bc, 0xee3eed44, 0xea868d59, 0xd67aa3c8] := by
  decide +kernel

/-- Section 1, K1: the source's own known answer, "helloworld". -/
theorem test_sum :
    response (exec (.sum [0x68, 0x65, 0x6c, 0x6c, 0x6f, 0x77, 0x6f, 0x72, 0x6c, 0x64]) State.reset) = some
      [0x04000000, 0xc70c5f73, 0xda4e8b8b, 0x73478af5, 0x42414695, 0x66f6497e, 0x16c053a0, 0x3a0170fa, 0x00078283] := by
  decide +kernel

/-- Section 4.3, row F SUM "d". -/
theorem test_sum_after_finalize : left (exec (.sum [0x64]) stateF) = some { stateF with rsp := [0x04000002] } := by decide

/-- Section 4.3, row A STATUS. -/
theorem test_status : left (exec .status stateA) = some { stateA with rsp := [0x05000000, 0x00000300] } := by decide

/-- Section 4.3, row X STATUS. -/
theorem test_status_in_fault : left (exec .status stateX) = some { stateX with rsp := [0x05000000, 0x00000302] } := by decide

/-- Section 4.3: illegal and malformed words in A, F and X. -/
theorem test_refused_words :
    left (perform (.illegal 0x00) stateA) = some { stateA with rsp := [0x00000001] } ∧
    left (perform (.malformed 0x05) stateF) = some { stateF with rsp := [0x05000001] } ∧
    left (perform (.malformed 0x02) stateX) = some { stateX with rsp := [0x02000003] } := by decide

/-- Section 4.5: L wraps modulo 2^64. -/
theorem test_length_wraps : countBits 18446744073709551608 1 = 0 := by decide

/-- Section 3.2: rotation, the permutations, and the Boolean functions. -/
theorem test_primitives :
    rotl 0x12345678 12 = 0x45678123 ∧ rotl 0x12345678 32 = 0x12345678 ∧ rotl 0x12345678 33 = 0x2468acf0 ∧
    p0 0x12345678 = 0xd6688234 ∧ p1 0x12345678 = 0x05014549 ∧
    ff 0 0xff00ff00 0x0ff00ff0 0x00ffff00 = 0xf00f0ff0 ∧ ff 63 0xff00ff00 0x0ff00ff0 0x00ffff00 = 0x0ff0ff00 ∧
    gg 15 0xff00ff00 0x0ff00ff0 0x00ffff00 = 0xf00f0ff0 ∧ gg 16 0xff00ff00 0x0ff00ff0 0x00ffff00 = 0x0fff0f00 ∧
    rotatedConstant 0 = 0x79cc4519 ∧ rotatedConstant 16 = 0x9d8a7a87 ∧ rotatedConstant 32 = 0x7a879d8a := by decide

/-- Section 4.1, n = 3 and n = 55. -/
theorem test_pad :
    pad abc 24 = abc ++ [0x80] ++ List.replicate 52 0 ++ [0, 0, 0, 0, 0, 0, 0, 0x18] ∧
    pad (List.replicate 55 0x61) 440 = List.replicate 55 0x61 ++ [0x80] ++ [0, 0, 0, 0, 0, 0, 0x01, 0xb8] := by decide

/-! ### The hypotheses of the obligations can be met, one theorem per obligation that has hypotheses -/

theorem witness_ResetLeavesEmptyMessage : stateF.fsm ≠ .fault ∧ stateA.fsm ≠ .fault ∧ stateX.fsm = .fault := by decide

theorem witness_HardwareResetFromAnyState :
    { stateX with rstN := false, dec := .collecting 0x02000008 2 [] }.rstN = false := rfl

theorem witness_StepKeepsInvariant :
    (offered [0x02000003, 0x61626300] State.reset).Inv ∧
    step (offered [0x02000003, 0x61626300] State.reset) =
      .next { State.reset with dec := .collecting 0x02000003 1 [], cmdIn := [0x61626300] } :=
  ⟨⟨by decide, by decide, by decide, by decide, by decide, trivial, by decide, by decide⟩, rfl⟩

theorem witness_EveryRunKeepsInvariant :
    State.reset.Inv ∧ ∃ t, session [.act (.send [0x02000003, 0x61626300]), .tick, .tick, .tick] State.reset = .next t ∧
      t.len = 24 ∧ t.rspOut = [0x02000000] :=
  ⟨⟨by decide, by decide, by decide, by decide, by decide, trivial, by decide, by decide⟩, _, rfl, by decide, by decide⟩

theorem witness_FaultNeverEntered :
    (offered [0x03000000] stateA).fsm ≠ .fault ∧ ∃ t, step (offered [0x03000000] stateA) = .next t :=
  ⟨by decide, _, rfl⟩

/-- Each clause: a refused command, a step in FAULT, the reset edge, and two states that differ in V, L and the bytes of BUF. -/
theorem witness_FaultIsSticky :
    (stateX.fsm = .fault ∧ Decoded.command .reset ≠ .command .status) ∧
    ((offered [0x01000000] stateX).rstN = true ∧
      step (offered [0x01000000] stateX) = .next { stateX with rsp := [0x01000003] }) ∧
    (∃ t, step { stateX with rstN := false } = .next t) ∧
    (let other := { stateX with v := stateF.v, len := 0, buf := [1, 2, 3] }
     other.fsm = .fault ∧ stateX.buf.length = other.buf.length ∧ stateX ≠ other ∧
      perform (.command .status) stateX = .next { stateX with rsp := [0x05000000, 0x302] } ∧
      perform (.command .status) other = .next { other with rsp := [0x05000000, 0x302] }) :=
  ⟨by decide, ⟨rfl, rfl⟩, ⟨_, rfl⟩, by decide, by decide, by decide, rfl, rfl⟩

/-- Each clause: the reset edge, a RESET, a FINALIZE and a SUM that complete in ACCEPTING, a step in FAULT, and a step that
changes FSM. -/
theorem witness_FsmTransitions :
    (∃ t, step { stateX with rstN := false } = .next t) ∧
    ((offered [0x01000000] stateF).Completes (.command .reset) ∧ ∃ t, step (offered [0x01000000] stateF) = .next t ∧
      t.fsm ≠ stateF.fsm) ∧
    ((offered [0x03000000] stateA).Completes (.command .finalize) ∧ ∃ t, step (offered [0x03000000] stateA) = .next t) ∧
    ((offered [0x04000000] stateA).Completes (.command (.sum [])) ∧ ∃ t, step (offered [0x04000000] stateA) = .next t) ∧
    (∃ t, step (offered [0x03000000] stateX) = .next t) :=
  ⟨⟨_, rfl⟩, ⟨⟨rfl, rfl, _, _, rfl, rfl⟩, _, rfl, by decide⟩, ⟨⟨rfl, rfl, _, _, rfl, rfl⟩, _, rfl⟩,
    ⟨⟨rfl, rfl, _, _, rfl, rfl⟩, _, rfl⟩, ⟨_, rfl⟩⟩

/-- A step that changes V, in each of the ways the obligation names: hardware reset, RESET, WRITE, FINALIZE, SUM. -/
theorem witness_OnlyFourWritersOfV :
    (∃ t, step { stateF with rstN := false } = .next t ∧ t.v ≠ stateF.v) ∧
    (∃ t, step (offered [0x01000000] stateF) = .next t ∧ t.v ≠ stateF.v) ∧
    (∃ t, step (offered [0x03000000] stateA) = .next t ∧ t.v ≠ stateA.v) ∧
    (∃ t, step (offered [0x04000000] stateA) = .next t ∧ t.v ≠ stateA.v) ∧
    (∃ t, step { State.reset with
        buf := List.replicate 63 0, len := 504, dec := .collecting 0x02000001 1 [], cmdIn := [0x61000000] } = .next t ∧
      t.v ≠ State.reset.v) :=
  ⟨⟨_, rfl, by decide⟩, ⟨_, rfl, by decide⟩, ⟨_, rfl, by decide +kernel⟩, ⟨_, rfl, by decide +kernel⟩,
    ⟨_, rfl, by decide +kernel⟩⟩

theorem witness_StepRunsDecodedCommand :
    ((offered [0x05000000, 7] stateA).rstN = true ∧ (offered [0x05000000, 7] stateA).rsp = [] ∧
      receiveWord (offered [0x05000000, 7] stateA).dec 0x05000000 = .complete (.command .status)) ∧
    receiveWord stateA.dec 0x00000000 = .complete (.illegal 0x00) ∧
    receiveWord (.collecting 0x02010002 1 []) 0x61620000 = .complete (.malformed 0x02) ∧
    receiveWord stateA.dec 0x02000003 = .waiting (.collecting 0x02000003 1 []) := by decide

theorem witness_WordsOfCommandRunIt :
    let s := offered [0x02000005, 0x61626364, 0x65aabbcc, 0x03000000] stateA
    s.rstN = true ∧ s.rsp = [] ∧ s.dec = .idle ∧
      decode s.cmdIn = some (.command (.write [0x61, 0x62, 0x63, 0x64, 0x65]), [0x03000000]) := by decide

theorem witness_ResponseIsDelivered :
    let s := { stateA with rsp := [0x02000000, 3] }
    s.rstN = true ∧ s.rspReady = true ∧ s.rsp.length = 2 := by decide

theorem witness_EveryCommandIsAnswered :
    let s := offered [0x04ff0005, 0x11223344, 0x55000000, 0x03000000] stateF
    s.rstN = true ∧ s.rspReady = true ∧ s.rsp = [] ∧ s.dec = .idle ∧
      decode s.cmdIn = some (.malformed 0x04, [0x03000000]) := by decide

theorem witness_ResponseBeforeNextCommand :
    let s := { stateA with rsp := [0x02000000, 3], cmdIn := [0x03000000] }
    s.rstN = true ∧ s.rsp = 0x02000000 :: [3] ∧ s.rspReady = true ∧ { s with rspReady := false }.rspReady = false := by
  decide

theorem witness_StuckOrIdleWithoutWords :
    (let s := { stateA with dec := .collecting 0x02000008 1 [0x61, 0x62, 0x63, 0x64] }
     s.rstN = true ∧ s.rsp = [] ∧ s.cmdIn = [] ∧ s.dec = .collecting 0x02000008 1 [0x61, 0x62, 0x63, 0x64]) ∧
    (stateF.rstN = true ∧ stateF.rsp = [] ∧ stateF.cmdIn = [] ∧ stateF.dec = .idle) := by decide

theorem witness_PartOfCommandHasNoEffect :
    step (offered [0x02000003] stateA) = .next { stateA with dec := .collecting 0x02000003 1 [] } ∧
    (offered [0x02000003] stateA).rstN = true ∧ ∀ c, ¬(offered [0x02000003] stateA).Completes c := by
  refine ⟨rfl, rfl, ?_⟩
  rintro c ⟨_, _, w, ws, h, hc⟩
  cases h
  cases hc

/-- Each clause: a command word moves, none can, a response word moves, none is on offer. -/
theorem witness_WordsMoveWhenValidAndReady :
    (cmdReady (offered [0x05000000] stateA) = true ∧ rspValid (offered [0x05000000] stateA) = false ∧
      ∃ t, step (offered [0x05000000] stateA) = .next t) ∧
    (let s := { stateA with rsp := [0x02000000, 3], cmdIn := [0x03000000] }
     cmdReady s = false ∧ rspValid s = true ∧ ∃ t, step s = .next t) :=
  ⟨⟨rfl, rfl, _, rfl⟩, rfl, rfl, _, rfl⟩

theorem witness_PortProtocol :
    (offered [0x01000000, 5] stateA).cmdIn = 0x01000000 :: [5] ∧ ([] : List Word).head? ≠ some 0x01000000 ∧
    [(0x02000000 : Word)].head? ≠ some 0x01000000 ∧ [(0x01000000 : Word), 6].head? = some 0x01000000 ∧ stateA.cmdIn = [] := by
  decide

theorem witness_DecodeOfEncode :
    (Instr.write (List.replicate 65535 0)).wellFormed = true ∧ (Instr.sum []).wellFormed = true ∧
    Instr.reset.wellFormed = true ∧ Instr.finalize.wellFormed = true ∧ Instr.status.wellFormed = true :=
  ⟨test_longest_payload.1, rfl, rfl, rfl, rfl⟩

theorem witness_DecodedWordsAreTheEncoding :
    decode [0x04000003, 0x616263ff, 9] = some (.command (.sum abc), [9]) := by decide

/-- The longest command: 16383 words behind its header are too few, 16384 are enough. -/
theorem witness_CommandLength :
    let need := ((0x0200ffff : Word).toNat % 2 ^ 16 + 3) / 4
    (List.replicate 16383 (0 : Word)).length < need ∧ need ≤ (List.replicate 16384 (0 : Word)).length := by
  rw [List.length_replicate, List.length_replicate]
  decide

theorem witness_IllFormedHeadersRefused :
    ((0x00000000 : Word).toNat / 2 ^ 24 = 0 ∧ 6 ≤ (0x06000000 : Word).toNat / 2 ^ 24 ∧
      6 ≤ (0xff000000 : Word).toNat / 2 ^ 24) ∧
    ((∀ i, decodeCommand 0x05000001 [] ≠ .command i) ∧ (∀ i, decodeCommand 0x02010001 [0x64] ≠ .command i)) ∧
    stateA.fsm ≠ .fault ∧ stateX.fsm = .fault := by
  refine ⟨by decide, ⟨?_, ?_⟩, by decide, by decide⟩ <;> intro i h <;> cases h

theorem witness_PayloadByteLanes : [(0x61626364 : Word), 0x65aabbcc].length = (5 + 3) / 4 ∧ 4 < 5 := by decide

theorem witness_AlignedPayloadIsBlockWords : (List.replicate 16 (0x61626364 : Word)).length = 16 := by decide

theorem witness_RotationBits : 32 % 32 = 0 ∧ 0 < 31 % 32 ∧ 31 < 32 := by decide

theorem witness_PermutationBits : 31 < 32 := by decide

theorem witness_RotatedRoundConstants : 15 ≤ 15 ∧ (16 ≤ 16 ∧ 16 ≤ 63) ∧ (16 ≤ 31 ∧ 31 ≤ 31) ∧ (16 ≤ 63 ∧ 63 ≤ 63) := by
  decide

theorem witness_BooleanFunctionBits : 31 < 32 ∧ 15 ≤ 15 ∧ 16 ≤ 16 := by decide

theorem witness_MessageExpansion :
    (List.replicate 64 (0xff : Byte)).length = 64 ∧ 15 < 16 ∧ (16 ≤ 16 ∧ 16 ≤ 67) ∧ (16 ≤ 67 ∧ 67 ≤ 67) ∧ 63 ≤ 63 := by
  decide

/-- The zero block, whose expanded words are all 0. -/
theorem witness_CompressionFunction :
    let block : List Byte := List.replicate 64 0
    let W : Nat → Word := fun _ => 0
    block.length = 64 ∧
    (∀ i, i < 16 → W i =
      block.getD (4 * i) 0 ++ block.getD (4 * i + 1) 0 ++ block.getD (4 * i + 2) 0 ++ block.getD (4 * i + 3) 0) ∧
    (∀ j, 16 ≤ j → j ≤ 67 →
      W j = p1 (W (j - 16) ^^^ W (j - 9) ^^^ rotl (W (j - 3)) 15) ^^^ rotl (W (j - 13)) 7 ^^^ W (j - 6)) :=
  ⟨by decide, by decide, fun _ _ _ => (by decide : (0 : Word) = p1 (0 ^^^ 0 ^^^ rotl 0 15) ^^^ rotl 0 7 ^^^ 0)⟩

theorem witness_PaddingBytes : (63 + 1 + 56) % 64 = 56 := by decide

theorem witness_PaddingLength :
    (List.replicate 55 (0x61 : Byte)).length ≤ 55 ∧ 56 ≤ (List.replicate 56 (0x61 : Byte)).length ∧
    (List.replicate 63 (0x61 : Byte)).length ≤ 63 ∧ ([] : List Byte).length = 0 := by decide

theorem witness_DigestBytes : 7 < 8 ∧ 3 < 4 := by decide

theorem witness_ResetCommand : stateF.fsm ≠ .fault ∧ stateX.fsm = .fault := by decide

theorem witness_WriteCommand :
    stateA.fsm = .accepting ∧ stateF.fsm = .finalized ∧ stateX.fsm = .fault ∧ stateF.fsm ≠ .fault ∧
    ([0x64] : List Byte) ≠ [] ∧ (List.replicate 65535 (0x62 : Byte)).length ≤ 65535 :=
  ⟨rfl, rfl, rfl, by decide, by decide, Nat.le_of_eq List.length_replicate⟩

theorem witness_FinalizeCommand :
    stateA.fsm = .accepting ∧ stateF.fsm = .finalized ∧ stateX.fsm = .fault ∧ stateF.fsm ≠ .fault := by decide

theorem witness_SumCommand :
    stateA.fsm = .accepting ∧ stateF.fsm = .finalized ∧ stateX.fsm = .fault ∧ stateF.fsm ≠ .fault ∧
    ([0x64] : List Byte) ≠ [] ∧ (List.replicate 65535 (0x63 : Byte)).length ≤ 65535 :=
  ⟨rfl, rfl, rfl, by decide, by decide, Nat.le_of_eq List.length_replicate⟩

theorem witness_StatusCommand :
    { State.reset with buf := List.replicate 63 0x61 }.buf.length < 64 ∧ stateF.fsm ≠ .fault ∧ stateX.fsm = .fault := by
  decide

theorem witness_WriteAfterFinalizeRefused : stateF.fsm = .finalized ∧ 0 < ([0x64] : List Byte).length := by decide

/-- Each cause in turn: FAULT, ILLEGAL without it, FINALIZED without both, and none. -/
theorem witness_RefusalPriority :
    (stateX.fsm = .fault ∧ Decoded.illegal 0x00 ≠ .command .status) ∧
    (stateF.fsm ≠ .fault ∧ ∀ i, Decoded.malformed 0x02 ≠ .command i) ∧
    (stateF.fsm = .finalized ∧ ([0x64] : List Byte) ≠ [] ∧ ¬∀ i, Decoded.command (.write [0x64]) ≠ .command i) ∧
    (stateA.fsm ≠ .fault ∧ stateA.fsm ≠ .finalized ∧ ¬∀ i, Decoded.command (.write [0x64]) ≠ .command i) :=
  ⟨by decide, ⟨by decide, fun _ h => by cases h⟩, ⟨rfl, by decide, fun h => h _ rfl⟩,
    ⟨by decide, by decide, fun h => h _ rfl⟩⟩

theorem witness_StatusWordFormat : perform (.illegal 0xff) stateA = .next { stateA with rsp := [0xff000001] } := rfl

theorem witness_RefusedCommandChangesNothing :
    perform (.command (.write [0x64])) stateF = .next { stateF with rsp := [0x02000002] } ∧
    ∀ w, { stateF with rsp := [(0x02000002 : Word)] }.rsp.head? = some w → w.extractLsb' 0 8 ≠ 0x00 := by
  refine ⟨rfl, fun w h => ?_⟩
  cases h
  decide

theorem witness_ResponseLengths :
    (0x02000002 : Word).extractLsb' 0 8 ≠ 0x00 ∧ (0x05000000 : Word).extractLsb' 0 8 = 0x00 := by decide

theorem witness_CommandFrames :
    (∃ t, exec (.write abc) stateA = .next t) ∧ (∃ t, exec .finalize stateA = .next t) ∧
    (∃ t, exec .status stateX = .next t) ∧
    ((∀ i, Decoded.illegal 0x06 ≠ .command i) ∧ ∃ t, perform (.illegal 0x06) stateA = .next t) :=
  ⟨⟨_, rfl⟩, ⟨_, rfl⟩, ⟨_, rfl⟩, (fun _ h => by cases h), _, rfl⟩

theorem witness_IdempotentCommands :
    ((∀ bs : List Byte, bs ≠ [] → Decoded.command .reset ≠ .command (.write bs) ∧ Decoded.command .reset ≠ .command (.sum bs)) ∧
      ∃ t, perform (.command .reset) stateA = .next t) ∧
    (stateA.buf.length < 64 ∧ exec (.write []) stateA = .next { stateA with rsp := [0x02000000, 0] }) ∧
    (([0x64] : List Byte) ≠ [] ∧ stateA.fsm = .accepting ∧ ∃ t u, exec (.sum [0x64]) stateA = .next t ∧
      exec (.sum [0x64]) t = .next u) :=
  ⟨⟨fun _ _ => ⟨(fun h => nomatch h), (fun h => nomatch h)⟩, _, rfl⟩, ⟨by decide, rfl⟩, by decide, rfl, _, _, rfl, rfl⟩

theorem witness_CommandsReadOnlyMessageState :
    let s' := { stateA with dec := .collecting 0x02000008 1 [], rspReady := false, cmdIn := [3], rspOut := [4] }
    stateA ≠ s' ∧ stateA.v = s'.v ∧ stateA.len = s'.len ∧ stateA.buf = s'.buf ∧ stateA.fsm = s'.fsm := by decide

theorem witness_HiddenStateIsNotRead :
    let s' := { stateA with v := stateF.v, len := 0, buf := [1, 2, 3] }
    stateA ≠ s' ∧ stateA.fsm = s'.fsm ∧ stateA.buf.length = s'.buf.length ∧
      Decoded.command .status ≠ .command .finalize ∧ ∀ bs, Decoded.command .status ≠ .command (.sum bs) :=
  ⟨by decide, by decide, by decide, by decide, fun _ h => by cases h⟩

/-- Each command in ACCEPTING, where it may run CF, and in FINALIZED or FAULT, where it runs it on no block. -/
theorem witness_WorkBounds :
    (stateA.buf.length < 64 ∧ abc.length ≤ 65535 ∧ stateA.fsm = .accepting ∧ stateF.buf.length < 64 ∧
      stateF.fsm ≠ .accepting ∧ stateX.buf.length < 64 ∧ stateX.fsm ≠ .accepting) ∧
    ((∃ t, exec (.write abc) stateA = .next t) ∧ ∃ t, exec (.write abc) stateF = .next t) ∧
    ((∃ t, exec .finalize stateA = .next t) ∧ ∃ t, exec .finalize stateF = .next t) ∧
    ((∃ t, exec (.sum abc) stateA = .next t) ∧ ∃ t, exec (.sum abc) stateX = .next t) ∧
    ((∃ t, exec .reset stateA = .next t) ∧ ∃ t, exec .reset stateX = .next t) ∧
    (∃ t, exec .status stateX = .next t) ∧
    ((∀ i, Decoded.illegal 0x06 ≠ .command i) ∧ ∃ t, perform (.illegal 0x06) stateA = .next t) :=
  ⟨by decide, ⟨⟨_, rfl⟩, _, rfl⟩, ⟨⟨_, rfl⟩, _, rfl⟩, ⟨⟨_, rfl⟩, _, rfl⟩, ⟨⟨_, rfl⟩, _, rfl⟩, ⟨_, rfl⟩,
    (fun _ h => nomatch h), _, rfl⟩

/-- Section 4.4: a split inside a block, one with empty parts. -/
theorem witness_ChunkingInvariance :
    stateA.fsm = .accepting ∧ stateA.buf.length < 64 ∧
    [([0x68, 0x65] : List Byte), [0x6c]].flatten = [[], [0x68], [0x65, 0x6c], []].flatten := by decide

theorem witness_DigestOfMessage : stateF.fsm ≠ .fault ∧ [abc, [], [0x64]].flatten.length < 2 ^ 61 := by decide

theorem witness_CommandStreamRunsInOrder :
    let is : List Instr := [.reset, .write abc, .finalize, .status]
    let s := offered (is.flatMap encode) stateF
    s.rstN = true ∧ s.rspReady = true ∧ s.rsp = [] ∧ s.dec = .idle ∧ (∀ i ∈ is, i.wellFormed = true) ∧
      s.cmdIn = is.flatMap encode := by decide

/-- A run in FAULT that completes a STATUS and takes its response, and a run outside FAULT; the first ends quiet. -/
theorem witness_FaultIsNoGoodEnd :
    (stateX.fsm = .fault ∧ stateX.rstN = true ∧
      (∀ e ∈ [HostEvent.act (.send [0x05000000]), .tick, .tick, .tick], e ≠ .act (.driveReset false)) ∧
      ∃ t, session [.act (.send [0x05000000]), .tick, .tick, .tick] stateX = .next t ∧ t.AllReturned ∧ ¬t.RunOver) ∧
    (stateA.fsm ≠ .fault ∧ ∃ t, session [.act (.send [0x01000000]), .tick, .tick] stateA = .next t ∧ t.RunOver) :=
  ⟨⟨rfl, rfl, by decide, _, rfl, ⟨rfl, rfl, rfl⟩, fun h => h.2 rfl⟩,
    by decide, _, rfl, ⟨rfl, rfl, rfl⟩, fun h => nomatch h⟩

theorem witness_DigestAtThePorts :
    (∀ c ∈ [abc, []], c.length ≤ 65535) ∧ [abc, []].flatten.length < 2 ^ 61 := by decide

/-- R57 at the limit of LEN: 65535 bytes are one command, 65536 are two. -/
theorem test_expansion_boundary :
    writeExpansion (List.replicate 65535 0) = [.write (List.replicate 65535 0)] ∧
    writeExpansion (List.replicate 65536 0) = [.write (List.replicate 65535 0), .write (List.replicate 1 0)] := by
  constructor
  · rw [writeExpansion, List.length_replicate, show 65535 / Config.maxLen = 0 + 1 by decide, writeParts,
      List.length_replicate, if_pos (by decide)]
  · rw [writeExpansion, List.length_replicate, show 65536 / Config.maxLen = 0 + 1 by decide, writeParts,
      List.length_replicate, if_neg (by decide), List.take_replicate, List.drop_replicate, writeParts,
      show min Config.maxLen 65536 = 65535 by decide, show 65536 - Config.maxLen = 1 by decide]

/-- Operands of 65535 and 65536 bytes, and of 70000 (section 2.3). -/
theorem witness_PseudoInstructionsSound :
    stateA.buf.length < 64 ∧ stateF.fsm ≠ .fault ∧ (List.replicate 65535 (0 : Byte)).length < 2 ^ 61 ∧
    (List.replicate 65536 (0 : Byte)).length < 2 ^ 61 ∧ (List.replicate 70000 (0 : Byte)).length < 2 ^ 61 := by
  rw [List.length_replicate, List.length_replicate, List.length_replicate]
  decide

end Sys2Proof.Tests
end

section
/-! PROOF. The family of spec/10_state.md: what a command, a step and a run can do to the state, each said once, and the
obligations about reset, the invariant, FSM, V and the frames of the commands. -/

namespace Sys2Proof.Machine

/-! ### The block streamer, as facts without case distinctions -/

/-- Absorbing runs CF on the whole blocks of BUF and the payload, in order, and keeps the bytes left over (R74). -/
theorem absorbed_blocks (v : HashState) (buf bs : List Byte) :
    ∃ blocks, WholeBlocks blocks ∧ buf ++ bs = blocks.flatten ++ (absorbed v buf bs).2 ∧
      (absorbed v buf bs).2.length < 64 ∧ (absorbed v buf bs).1 = blocks.foldl cf v :=
  absorbLoop_blocks _ v (buf ++ bs) le_rfl

/-- What absorbing leaves in BUF is short of a block and depends on the number of bytes alone (R74). -/
theorem absorbed_length (v : HashState) (buf bs : List Byte) :
    (absorbed v buf bs).2.length = (buf.length + bs.length) % 64 := by
  obtain ⟨blocks, hblocks, hsplit, hshort, -⟩ := absorbed_blocks v buf bs
  have hlen := congrArg List.length hsplit
  rw [List.length_append, List.length_append, flatten_length hblocks] at hlen
  omega

/-- L counts bits modulo 2^64 (R73). -/
theorem countBits_toNat (len : Length) (n : Nat) : (countBits len n).toNat = (len.toNat + 8 * n) % 2 ^ 64 := by
  simp [countBits]

/-- The padding ends on a block boundary for every buffer and length (R77). -/
theorem pad_length_mod (buf : List Byte) (len : Length) : (pad buf len).length % 64 = 0 := by
  have hzeros := padZeros_spec buf.length
  rw [pad_length_eq]
  omega

/-- Compressing the padding runs CF on its blocks in order (R79). -/
theorem compressAll_pad_blocks (v : HashState) (buf : List Byte) (len : Length) :
    ∃ blocks, WholeBlocks blocks ∧ blocks.flatten = pad buf len ∧ compressAll v (pad buf len) = blocks.foldl cf v := by
  have hwhole : (pad buf len).length = 64 * ((pad buf len).length / 64) := by
    have := pad_length_mod buf len
    omega
  obtain ⟨blocks, hblocks, hflat, hv, -⟩ := compressBlocks_blocks _ v _ hwhole
  exact ⟨blocks, hblocks, hflat, hv⟩

/-- `finish` never takes the fault: the padding check does not fail (R77, R93). -/
theorem finish_eq (opc : Byte) (s : State) :
    finish opc s = respond opc .ok (stateWords (compressAll s.v (pad s.buf s.len)))
      { s with v := compressAll s.v (pad s.buf s.len), buf := [], fsm := .finalized } := by
  obtain ⟨hbroken, -⟩ | ⟨-, hfinish⟩ := finish_cases opc s
  · exact absurd (pad_length_mod s.buf s.len) hbroken
  · exact hfinish

@[simp] theorem finish_v (opc : Byte) (s : State) : (finish opc s).v = compressAll s.v (pad s.buf s.len) := by
  rw [finish_eq]; rfl
@[simp] theorem finish_len (opc : Byte) (s : State) : (finish opc s).len = s.len := by rw [finish_eq]; rfl
@[simp] theorem finish_buf (opc : Byte) (s : State) : (finish opc s).buf = [] := by rw [finish_eq]; rfl
@[simp] theorem finish_fsm (opc : Byte) (s : State) : (finish opc s).fsm = .finalized := by rw [finish_eq]; rfl
@[simp] theorem finish_dec (opc : Byte) (s : State) : (finish opc s).dec = s.dec := by rw [finish_eq]; rfl
@[simp] theorem finish_rsp (opc : Byte) (s : State) :
    (finish opc s).rsp = statusWord opc .ok :: stateWords (compressAll s.v (pad s.buf s.len)) := by rw [finish_eq]; rfl
@[simp] theorem finish_rstN (opc : Byte) (s : State) : (finish opc s).rstN = s.rstN := by rw [finish_eq]; rfl
@[simp] theorem finish_rspReady (opc : Byte) (s : State) : (finish opc s).rspReady = s.rspReady := by rw [finish_eq]; rfl
@[simp] theorem finish_cmdIn (opc : Byte) (s : State) : (finish opc s).cmdIn = s.cmdIn := by rw [finish_eq]; rfl
@[simp] theorem finish_rspOut (opc : Byte) (s : State) : (finish opc s).rspOut = s.rspOut := by rw [finish_eq]; rfl

/-! ### What one command, one step and one act of the host can do -/

/-- Two states hold the same V, L, BUF and FSM; their decoders, ports and observations may differ. -/
structure SameMessage (s t : State) : Prop where
  v : s.v = t.v
  len : s.len = t.len
  buf : s.buf = t.buf
  fsm : s.fsm = t.fsm

/-- What performing a command can do: answer and change nothing else, or have the effect of its rule (R80 to R84, R91). -/
inductive CommandEffect : Decoded → State → State → Prop where
  | answer (c : Decoded) (s : State) (opc : Byte) (rc : ResponseCode) (data : List Word) (short : data.length ≤ 8) :
    CommandEffect c s (respond opc rc data s)
  | reset (s : State) (h : s.fsm ≠ .fault) :
    CommandEffect (.command .reset) s
      (respond opcReset .ok [] { s with v := Config.iv, len := 0, buf := [], fsm := .accepting })
  | write (bs : List Byte) (s : State) (h : s.fsm = .accepting) :
    CommandEffect (.command (.write bs)) s (respond opcWrite .ok [BitVec.ofNat 32 bs.length] (absorb bs s))
  | finalize (s : State) (h : s.fsm = .accepting) :
    CommandEffect (.command .finalize) s (finish opcFinalize s)
  | sum (bs : List Byte) (s : State) (h : s.fsm = .accepting) :
    CommandEffect (.command (.sum bs)) s (finish opcSum (absorb bs s))

theorem CommandEffect.refused (c : Decoded) (s : State) (opc : Byte) (rc : ResponseCode) :
    CommandEffect c s (refuse opc rc s) :=
  .answer c s opc rc [] (Nat.zero_le 8)

/-- Every command is answered, with one of the effects above. -/
theorem perform_answers (c : Decoded) (s : State) : ∃ t, perform c s = .next t ∧ CommandEffect c s t := by
  cases c with
  | command i =>
    cases i with
    | reset =>
      obtain ⟨-, h⟩ | ⟨hf, h⟩ := execReset_cases s
      · exact ⟨_, h, .refused ..⟩
      · exact ⟨_, h, .reset s hf⟩
    | write bs =>
      obtain ⟨-, h⟩ | ⟨-, -, h⟩ | ⟨-, -, h⟩ | ⟨hf, h⟩ := execWrite_cases bs s
      · exact ⟨_, h, .refused ..⟩
      · exact ⟨_, h, .answer _ _ _ _ _ (by simp)⟩
      · exact ⟨_, h, .refused ..⟩
      · exact ⟨_, h, .write bs s hf⟩
    | finalize =>
      obtain ⟨-, h⟩ | ⟨-, h⟩ | ⟨hf, h⟩ := execFinalize_cases s
      · exact ⟨_, h, .refused ..⟩
      · exact ⟨_, h, .answer _ _ _ _ _ (by simp)⟩
      · exact ⟨_, h, .finalize s hf⟩
    | sum bs =>
      obtain ⟨-, h⟩ | ⟨-, -, h⟩ | ⟨-, -, h⟩ | ⟨hf, h⟩ := execSum_cases bs s
      · exact ⟨_, h, .refused ..⟩
      · exact ⟨_, h, .answer _ _ _ _ _ (by simp)⟩
      · exact ⟨_, h, .refused ..⟩
      · exact ⟨_, h, .sum bs s hf⟩
    | status => exact ⟨_, rfl, .answer _ _ _ _ _ (by simp)⟩
  | malformed opc => obtain ⟨-, h⟩ | ⟨-, h⟩ := execMalformed_cases opc s <;> exact ⟨_, h, .refused ..⟩
  | illegal opc => obtain ⟨-, h⟩ | ⟨-, h⟩ := execIllegal_cases opc s <;> exact ⟨_, h, .refused ..⟩

theorem perform_effect {c : Decoded} {s t : State} (h : perform c s = .next t) : CommandEffect c s t := by
  obtain ⟨u, hu, heffect⟩ := perform_answers c s
  cases hu.symm.trans h
  exact heffect

/-- An edge while rst_n is 0 is a hardware reset (R104). -/
theorem step_of_rstN_false {s : State} (h : s.rstN = false) : step s = .next (hardReset s) := by
  simp [step, edge, h]

/-- The edge that completes a command performs it, with the decoder IDLE and the word gone (R37). -/
theorem step_of_completes {s : State} {c : Decoded} (h : s.Completes c) :
    ∃ ws, step s = perform c { s with dec := .idle, cmdIn := ws } := by
  obtain ⟨hrst, hrsp, w, ws, hcmd, hc⟩ := h
  exact ⟨ws, by simp [step, edge, takeCommandWord, hrst, hrsp, hcmd, hc]⟩

/-- To V, L, BUF and FSM a step is a hardware reset, nothing, or the command it completes. -/
theorem step_effect {s t : State} (h : step s = .next t) :
    (s.rstN = false ∧ t = hardReset s) ∨ (s.rstN = true ∧ SameMessage s t) ∨
    (∃ c ws, s.Completes c ∧ CommandEffect c { s with dec := .idle, cmdIn := ws } t) := by
  obtain ⟨hrst, rfl⟩ | ⟨hrst, w, ws, -, -, rfl⟩ | ⟨hrst, -, -, -, rfl⟩ | ⟨hrst, -, w, ws, d, -, -, rfl⟩ |
    ⟨hrst, hrsp, w, ws, c, hcmd, hc, hperform⟩ := step_cases h
  · exact .inl ⟨hrst, rfl⟩
  · exact .inr (.inl ⟨hrst, rfl, rfl, rfl, rfl⟩)
  · exact .inr (.inl ⟨hrst, rfl, rfl, rfl, rfl⟩)
  · exact .inr (.inl ⟨hrst, rfl, rfl, rfl, rfl⟩)
  · exact .inr (.inr ⟨c, ws, ⟨hrst, hrsp, w, ws, hcmd, hc⟩, perform_effect hperform⟩)

/-- An act of the host moves the pins it drives and nothing else (R103). -/
theorem hostAct_pins {a : HostAct} {s t : State} (h : hostAct a s = .next t) :
    ∃ rstN rspReady cmdIn, t = { s with rstN := rstN, rspReady := rspReady, cmdIn := cmdIn } := by
  cases a with
  | driveReset b =>
    cases h
    exact ⟨b, s.rspReady, s.cmdIn, rfl⟩
  | driveReady b =>
    cases h
    exact ⟨s.rstN, b, s.cmdIn, rfl⟩
  | send ws =>
    cases h
    exact ⟨s.rstN, s.rspReady, s.cmdIn ++ ws, rfl⟩
  | change ws =>
    simp only [hostAct] at h
    split at h
    · cases h
      exact ⟨s.rstN, s.rspReady, ws, rfl⟩
    · split at h
      · cases h
        exact ⟨s.rstN, s.rspReady, ws, rfl⟩
      · cases h

/-- What every step and every act of the host keeps, every run keeps (R117). -/
theorem session_keeps {P : State → Prop} (hact : ∀ a s t, P s → hostAct a s = .next t → P t)
    (hstep : ∀ s t, P s → step s = .next t → P t) {es : List HostEvent} {s t : State} (hs : P s)
    (h : session es s = .next t) : P t := by
  induction es generalizing s with
  | nil =>
    cases h
    exact hs
  | cons e es ih =>
    cases e with
    | act a =>
      cases ha : hostAct a s with
      | next u => exact ih (hact a s u hs ha) (session_act_of_next es ha ▸ h)
      | fault r => simp [session, ha] at h
      | refused r => simp [session, ha] at h
    | tick =>
      cases hu : step s with
      | next u => exact ih (hstep s u hs hu) (session_tick_of_next es hu ▸ h)
      | fault r => simp [session, hu] at h
      | refused r => simp [session, hu] at h

/-! ### The invariant -/

/-- The invariant reads the message state, the decoder and the pending response alone. -/
theorem inv_of_sameMessage {s t : State} (hs : s.Inv) (h : SameMessage s t) (hdec : t.dec.Sound)
    (hshort : t.rsp.length ≤ 9) (hfirst : t.rsp ≠ [] → t.dec = .idle) : t.Inv where
  bufShort := h.buf ▸ hs.bufShort
  wholeBytes := h.len ▸ hs.wholeBytes
  notFault := h.fsm ▸ hs.notFault
  bufCount := h.buf ▸ h.len ▸ h.fsm ▸ hs.bufCount
  bufEmpty := h.buf ▸ h.fsm ▸ hs.bufEmpty
  decoder := hdec
  rspShort := hshort
  rspFirst := hfirst

/-- An empty message meets the invariant (R27). -/
theorem inv_of_empty {s : State} (hlen : s.len = 0) (hbuf : s.buf = []) (hfsm : s.fsm = .accepting)
    (hdec : s.dec.Sound) (hshort : s.rsp.length ≤ 9) (hfirst : s.rsp ≠ [] → s.dec = .idle) : s.Inv where
  bufShort := by simp [hbuf]
  wholeBytes := by simp [hlen]
  notFault := by simp [hfsm]
  bufCount := by simp [hbuf, hlen]
  bufEmpty := fun _ => hbuf
  decoder := hdec
  rspShort := hshort
  rspFirst := hfirst

theorem inv_hardReset (s : State) : (hardReset s).Inv :=
  inv_of_empty rfl rfl rfl trivial (Nat.zero_le 9) fun h => absurd rfl h

/-- Answering between commands keeps the invariant: a response has at most nine words (R51). -/
theorem inv_respond {s : State} (hs : s.Inv) (hdec : s.dec = .idle) (opc : Byte) (rc : ResponseCode)
    {data : List Word} (hdata : data.length ≤ 8) : (respond opc rc data s).Inv :=
  inv_of_sameMessage hs ⟨rfl, rfl, rfl, rfl⟩ hs.decoder (Nat.succ_le_succ hdata) fun _ => hdec

/-- BUF and L grow together, so absorbing keeps R18's relation between them, across the wrap of L too (R73, R74). -/
theorem inv_absorb {s : State} (hs : s.Inv) (hfsm : s.fsm = .accepting) (bs : List Byte) :
    (absorb bs s).Inv where
  bufShort := by
    rw [absorb_buf, absorbed_length]
    omega
  wholeBytes := by
    have hwhole := hs.wholeBytes
    rw [absorb_len, countBits_toNat]
    omega
  notFault := hs.notFault
  bufCount := fun _ => by
    have hwhole := hs.wholeBytes
    have hcount := hs.bufCount hfsm
    rw [absorb_buf, absorbed_length, absorb_len, countBits_toNat]
    omega
  bufEmpty := fun hfin => by simp [hfsm] at hfin
  decoder := hs.decoder
  rspShort := hs.rspShort
  rspFirst := hs.rspFirst

/-- Finishing keeps the invariant: it empties BUF and answers the eight digest words (R79). -/
theorem inv_finish {s : State} (hs : s.Inv) (hdec : s.dec = .idle) (opc : Byte) : (finish opc s).Inv where
  bufShort := by simp
  wholeBytes := by simpa using hs.wholeBytes
  notFault := by simp
  bufCount := by simp
  bufEmpty := by simp
  decoder := by simpa using hs.decoder
  rspShort := by simp
  rspFirst := by simp [hdec]

/-- A command performed between commands keeps the invariant. -/
theorem CommandEffect.inv {c : Decoded} {s t : State} (h : CommandEffect c s t) (hs : s.Inv) (hdec : s.dec = .idle) :
    t.Inv := by
  cases h with
  | answer _ _ opc rc data short => exact inv_respond hs hdec opc rc short
  | reset => exact inv_of_empty rfl rfl rfl hs.decoder (by simp) fun _ => hdec
  | write bs _ hf => exact inv_respond (inv_absorb hs hf bs) hdec _ _ (by simp)
  | finalize => exact inv_finish hs hdec _
  | sum bs _ hf => exact inv_finish (inv_absorb hs hf bs) hdec _

theorem step_keeps_inv {s t : State} (hs : s.Inv) (h : step s = .next t) : t.Inv := by
  obtain ⟨-, rfl⟩ | ⟨-, w, ws, hrsp, -, rfl⟩ | ⟨-, -, -, -, rfl⟩ | ⟨-, hrsp, w, ws, d, -, hd, rfl⟩ |
    ⟨-, hrsp, w, ws, c, -, -, hperform⟩ := step_cases h
  · exact inv_hardReset s
  · have hshort := hs.rspShort
    simp only [hrsp, List.length_cons] at hshort
    exact inv_of_sameMessage hs ⟨rfl, rfl, rfl, rfl⟩ hs.decoder (by simp; omega) fun _ => hs.rspFirst (by simp [hrsp])
  · exact hs
  · exact inv_of_sameMessage hs ⟨rfl, rfl, rfl, rfl⟩ (receiveWord_sound hs.decoder hd) hs.rspShort fun hne => absurd hrsp hne
  · exact (perform_effect hperform).inv
      (inv_of_sameMessage hs ⟨rfl, rfl, rfl, rfl⟩ trivial hs.rspShort fun _ => rfl) rfl

theorem hostAct_keeps_inv {a : HostAct} {s t : State} (hs : s.Inv) (h : hostAct a s = .next t) : t.Inv := by
  obtain ⟨rstN, rspReady, cmdIn, rfl⟩ := hostAct_pins h
  exact inv_of_sameMessage hs ⟨rfl, rfl, rfl, rfl⟩ hs.decoder hs.rspShort hs.rspFirst

/-- Settles O4: `step_keeps_inv`, by the five things a step can do. -/
theorem stepKeepsInvariant : Obligations.StepKeepsInvariant := fun _ _ => step_keeps_inv

/-- Settles O5, by induction on the events of the run. -/
theorem everyRunKeepsInvariant : Obligations.EveryRunKeepsInvariant :=
  fun _ _ _ => session_keeps (fun _ _ _ => hostAct_keeps_inv) fun _ _ => step_keeps_inv

/-- Settles O3: the reset state is what hardware reset leaves. -/
theorem invariantAtReset : Obligations.InvariantAtReset := inv_hardReset State.reset

/-! ### The control state and the hash state -/

theorem execReset_fsm {s t : State} (hf : s.fsm ≠ .fault) (h : execReset s = .next t) : t.fsm = .accepting := by
  obtain ⟨hfault, -⟩ | ⟨-, hnext⟩ := execReset_cases s
  · exact absurd hfault hf
  · cases hnext.symm.trans h
    rfl

theorem execFinalize_of_accepting {s : State} (hf : s.fsm = .accepting) :
    execFinalize s = .next (finish opcFinalize s) := by
  simp [execFinalize, hf]

theorem execSum_of_accepting {s : State} (hf : s.fsm = .accepting) (bs : List Byte) :
    execSum bs s = .next (finish opcSum (absorb bs s)) := by
  simp [execSum, hf]

theorem execFinalize_fsm {s t : State} (hf : s.fsm = .accepting) (h : execFinalize s = .next t) : t.fsm = .finalized := by
  cases (execFinalize_of_accepting hf).symm.trans h
  simp

theorem execSum_fsm {bs : List Byte} {s t : State} (hf : s.fsm = .accepting) (h : execSum bs s = .next t) :
    t.fsm = .finalized := by
  cases (execSum_of_accepting hf bs).symm.trans h
  simp

/-- The events that change FSM (R19): no other one does. -/
theorem step_changes_fsm {s t : State} (h : step s = .next t) (hne : t.fsm ≠ s.fsm) :
    s.rstN = false ∨ (s.Completes (.command .reset) ∧ s.fsm ≠ .fault) ∨
    ((s.Completes (.command .finalize) ∨ ∃ bs, s.Completes (.command (.sum bs))) ∧ s.fsm = .accepting) := by
  obtain ⟨hrst, -⟩ | ⟨-, hsame⟩ | ⟨c, ws, hc, heffect⟩ := step_effect h
  · exact .inl hrst
  · exact absurd hsame.fsm.symm hne
  · cases heffect with
    | answer => exact absurd rfl hne
    | reset _ hf => exact .inr (.inl ⟨hc, hf⟩)
    | write => exact absurd rfl hne
    | finalize _ hf => exact .inr (.inr ⟨.inl hc, hf⟩)
    | sum bs _ hf => exact .inr (.inr ⟨.inr ⟨bs, hc⟩, hf⟩)

/-- Only hardware reset leaves FAULT (R94). -/
theorem step_keeps_fault {s t : State} (hrst : s.rstN = true) (hf : s.fsm = .fault) (h : step s = .next t) :
    t.fsm = .fault := by
  by_contra hne
  obtain hreset | ⟨-, hnot⟩ | ⟨-, hacc⟩ := step_changes_fsm h (hf ▸ hne)
  · simp [hrst] at hreset
  · exact hnot hf
  · simp [hf] at hacc

/-- Settles O8: each row of R19's table by the command that completes, the rest by `step_changes_fsm`. -/
theorem fsmTransitions : Obligations.FsmTransitions := by
  refine ⟨⟨rfl, rfl, rfl, fun f => by cases f <;> decide⟩, fun _ _ => rfl, fun s t h => ⟨?_, ?_, ?_, ?_, ?_⟩⟩
  · intro hrst
    cases (step_of_rstN_false hrst).symm.trans h
    rfl
  · intro hc hf
    obtain ⟨ws, hperform⟩ := step_of_completes hc
    exact execReset_fsm (s := { s with dec := .idle, cmdIn := ws }) hf (hperform.symm.trans h)
  · rintro (hc | ⟨bs, hc⟩) hf
    · obtain ⟨ws, hperform⟩ := step_of_completes hc
      exact execFinalize_fsm (s := { s with dec := .idle, cmdIn := ws }) hf (hperform.symm.trans h)
    · obtain ⟨ws, hperform⟩ := step_of_completes hc
      exact execSum_fsm (s := { s with dec := .idle, cmdIn := ws }) hf (hperform.symm.trans h)
  · exact fun hrst hf => step_keeps_fault hrst hf h
  · exact step_changes_fsm h

/-- Settles O9: a step that changes V is a reset or completes a command whose effect is no bare answer. -/
theorem onlyFourWritersOfV : Obligations.OnlyFourWritersOfV := by
  intro s t h hne
  obtain ⟨hrst, rfl⟩ | ⟨-, hsame⟩ | ⟨c, ws, hc, heffect⟩ := step_effect h
  · exact .inl ⟨hrst, rfl⟩
  · exact absurd hsame.v.symm hne
  · cases heffect with
    | answer => exact absurd rfl hne
    | reset => exact .inr (.inl ⟨hc, rfl⟩)
    | write bs =>
      obtain ⟨blocks, hblocks, hsplit, -, hv⟩ := absorbed_blocks s.v s.buf bs
      exact .inr (.inr (.inl ⟨bs, blocks, hc, hblocks, hv, hsplit⟩))
    | finalize =>
      obtain ⟨padding, hpadding, hpad, hv⟩ := compressAll_pad_blocks s.v s.buf s.len
      exact .inr (.inr (.inr (.inl ⟨padding, hc, hpadding, by simpa using hv, hpad⟩)))
    | sum bs =>
      obtain ⟨blocks, hblocks, hsplit, hshort, hv⟩ := absorbed_blocks s.v s.buf bs
      obtain ⟨padding, hpadding, hpad, hfinal⟩ :=
        compressAll_pad_blocks (absorbed s.v s.buf bs).1 (absorbed s.v s.buf bs).2 (countBits s.len bs.length)
      refine .inr (.inr (.inr (.inr ⟨bs, blocks, _, padding, hc, hblocks, hpadding, ?_, hsplit, hshort, ?_⟩)))
      · simpa [hv, List.foldl_append] using hfinal
      · simpa using hpad

/-! ### What commands leave unchanged and what they read -/

/-- Commands do not touch the decoder, the pins, the words on offer or what the host has received (R23, R103). -/
theorem CommandEffect.frame {c : Decoded} {s t : State} (h : CommandEffect c s t) :
    t.dec = s.dec ∧ t.rstN = s.rstN ∧ t.rspReady = s.rspReady ∧ t.cmdIn = s.cmdIn ∧ t.rspOut = s.rspOut := by
  cases h with
  | answer => exact ⟨rfl, rfl, rfl, rfl, rfl⟩
  | reset => exact ⟨rfl, rfl, rfl, rfl, rfl⟩
  | write => exact ⟨rfl, rfl, rfl, rfl, rfl⟩
  | finalize => simp
  | sum => simp

/-- Words that are no command of the map are answered and change nothing (R91). -/
theorem CommandEffect.keeps_of_not_command {c : Decoded} {s t : State} (h : CommandEffect c s t)
    (hc : ∀ i, c ≠ .command i) : t.v = s.v ∧ t.len = s.len ∧ t.buf = s.buf ∧ t.fsm = s.fsm := by
  cases h with
  | answer => exact ⟨rfl, rfl, rfl, rfl⟩
  | reset => exact absurd rfl (hc _)
  | write => exact absurd rfl (hc _)
  | finalize => exact absurd rfl (hc _)
  | sum => exact absurd rfl (hc _)

/-- Settles O49, by the effect each command can have. -/
theorem commandFrames : Obligations.CommandFrames := by
  refine ⟨fun c s t h => (perform_effect h).frame, fun bs s t h => ?_, fun s t h => ?_, fun s t h => ?_,
    fun c s t hc h => (perform_effect h).keeps_of_not_command hc⟩
  · cases perform_effect (c := .command (.write bs)) h <;> rfl
  · cases perform_effect (c := .command .finalize) h with
    | answer => rfl
    | finalize => simp
  · cases perform_effect (c := .command .status) h
    exact ⟨rfl, rfl, rfl, rfl⟩

theorem absorb_sameMessage {s s' : State} (h : SameMessage s s') (bs : List Byte) :
    SameMessage (absorb bs s) (absorb bs s') :=
  ⟨by simp [h.v, h.buf], by simp [h.len], by simp [h.v, h.buf], h.fsm⟩

theorem finish_sameMessage {s s' : State} (h : SameMessage s s') (opc : Byte) :
    (finish opc s).rsp = (finish opc s').rsp ∧ SameMessage (finish opc s) (finish opc s') :=
  ⟨by simp [h.v, h.len, h.buf], by simp [h.v, h.len, h.buf], by simp [h.len], by simp, by simp⟩

/-- A command answers and acts from V, L, BUF and FSM alone, in each control state (R87). -/
theorem perform_sameMessage {s s' : State} (h : SameMessage s s') (c : Decoded) :
    ∃ t t', perform c s = .next t ∧ perform c s' = .next t' ∧ t.rsp = t'.rsp ∧ SameMessage t t' := by
  obtain ⟨v, len, buf, fsm⟩ := s
  obtain ⟨v', len', buf', fsm'⟩ := s'
  obtain ⟨rfl, rfl, rfl, rfl⟩ := id h
  cases c with
  | command i =>
    cases i with
    | reset => cases fsm <;> exact ⟨_, _, rfl, rfl, rfl, rfl, rfl, rfl, rfl⟩
    | write bs => cases fsm <;> cases bs <;> exact ⟨_, _, rfl, rfl, rfl, rfl, rfl, rfl, rfl⟩
    | finalize =>
      cases fsm with
      | accepting => exact ⟨_, _, rfl, rfl, finish_sameMessage h opcFinalize⟩
      | finalized => exact ⟨_, _, rfl, rfl, rfl, rfl, rfl, rfl, rfl⟩
      | fault => exact ⟨_, _, rfl, rfl, rfl, rfl, rfl, rfl, rfl⟩
    | sum bs =>
      cases fsm with
      | accepting => exact ⟨_, _, rfl, rfl, finish_sameMessage (absorb_sameMessage h bs) opcSum⟩
      | finalized => cases bs <;> exact ⟨_, _, rfl, rfl, rfl, rfl, rfl, rfl, rfl⟩
      | fault => exact ⟨_, _, rfl, rfl, rfl, rfl, rfl, rfl, rfl⟩
    | status => exact ⟨_, _, rfl, rfl, rfl, rfl, rfl, rfl, rfl⟩
  | malformed opc => cases fsm <;> exact ⟨_, _, rfl, rfl, rfl, rfl, rfl, rfl, rfl⟩
  | illegal opc => cases fsm <;> exact ⟨_, _, rfl, rfl, rfl, rfl, rfl, rfl, rfl⟩

/-- Settles O51, by `perform_sameMessage`. -/
theorem commandsReadOnlyMessageState : Obligations.CommandsReadOnlyMessageState := by
  intro c s s' hv hlen hbuf hfsm
  obtain ⟨t, t', ht, ht', hrsp, hv', hlen', hbuf', hfsm'⟩ := perform_sameMessage ⟨hv, hlen, hbuf, hfsm⟩ c
  exact ⟨t, t', ht, ht', hrsp, hv', hlen', hbuf', hfsm'⟩

/-- STATUS reads FSM and the number of buffered bytes (R20). -/
theorem statusRegister_congr {s s' : State} (hfsm : s.fsm = s'.fsm) (hbuf : s.buf.length = s'.buf.length) :
    statusRegister s = statusRegister s' := by
  simp [statusRegister, bufCount, hfsm, hbuf]

/-- Settles O52: each command but FINALIZE and SUM, in each control state; the payload of a WRITE leaves as many bytes
buffered in one state as in the other. -/
theorem hiddenStateIsNotRead : Obligations.HiddenStateIsNotRead := by
  intro c s s' hfsm hbuf hfin hsum
  have hstatus := statusRegister_congr hfsm hbuf
  obtain ⟨v, len, buf, fsm⟩ := s
  obtain ⟨v', len', buf', fsm'⟩ := s'
  obtain rfl : fsm = fsm' := hfsm
  cases c with
  | command i =>
    cases i with
    | reset =>
      cases fsm with
      | accepting => exact ⟨_, _, rfl, rfl, rfl, rfl, rfl⟩
      | finalized => exact ⟨_, _, rfl, rfl, rfl, rfl, rfl⟩
      | fault => exact ⟨_, _, rfl, rfl, rfl, rfl, hbuf⟩
    | write bs =>
      cases fsm with
      | accepting =>
        refine ⟨_, _, rfl, rfl, rfl, rfl, ?_⟩
        simp only [respond_buf, absorb_buf, absorbed_length]
        rw [hbuf]
      | finalized => cases bs <;> exact ⟨_, _, rfl, rfl, rfl, rfl, hbuf⟩
      | fault => exact ⟨_, _, rfl, rfl, rfl, rfl, hbuf⟩
    | finalize => exact absurd rfl hfin
    | sum bs => exact absurd rfl (hsum bs)
    | status => exact ⟨_, _, rfl, rfl, by simp [hstatus], rfl, hbuf⟩
  | malformed opc => cases fsm <;> exact ⟨_, _, rfl, rfl, rfl, rfl, hbuf⟩
  | illegal opc => cases fsm <;> exact ⟨_, _, rfl, rfl, rfl, rfl, hbuf⟩

/-- STATUS of an empty message is 0 (R20, R27). -/
theorem statusRegister_of_empty {s : State} (hbuf : s.buf = []) (hfsm : s.fsm = .accepting) : statusRegister s = 0 := by
  rw [statusRegister, hbuf, hfsm]
  rfl

/-- Settles O1: the reset state by its fields, RESET by the two things it can do. -/
theorem resetLeavesEmptyMessage : Obligations.ResetLeavesEmptyMessage := by
  refine ⟨⟨rfl, rfl, rfl, rfl, statusRegister_of_empty rfl rfl, rfl, rfl⟩, fun s hf => ?_, fun s hf => ?_⟩
  · obtain ⟨hfault, -⟩ | ⟨-, hnext⟩ := execReset_cases s
    · exact absurd hfault hf
    · exact ⟨_, hnext, rfl, rfl, rfl, rfl, statusRegister_of_empty rfl rfl, rfl, by simp⟩
  · obtain ⟨-, hnext⟩ | ⟨hnot, -⟩ := execReset_cases s
    · rw [exec_reset, hnext]
      simp [refuse, respond]
    · exact absurd hf hnot

end Sys2Proof.Machine
end

section
/-! PROOF. The family of spec/20_memory.md: words on the ports (R34 to R39), the bytes they carry (R30 to R33), and the
obligations about commands received word by word, their responses, and streams of commands. -/

namespace Sys2Proof.Machine

/-! ### The bytes that words carry -/

/-- The sixteen words of a block that came as payload words are those words (R33); here for any number of them. -/
theorem blockWords_flatMap_be32bytes (ps : List Word) : blockWords (ps.flatMap be32bytes) = ps := by
  induction ps with
  | nil => rfl
  | cons p ps ih =>
    calc blockWords ((p :: ps).flatMap be32bytes)
        = be32 (p.extractLsb' 24 8) (p.extractLsb' 16 8) (p.extractLsb' 8 8) (p.extractLsb' 0 8) ::
            blockWords (ps.flatMap be32bytes) := rfl
      _ = p :: ps := by rw [be32_of_bytes, ih]

/-- Byte `k` of a word, the most significant first (R10). -/
theorem be32bytes_getElem? (w : Word) {k : Nat} (hk : k < 4) :
    (be32bytes w)[k]? = some (w.extractLsb' (24 - 8 * k) 8) := by
  match k, hk with
  | 0, _ => rfl
  | 1, _ => rfl
  | 2, _ => rfl
  | 3, _ => rfl

/-- Byte `4 * i + k` of a sequence of words is byte `k` of word `i` (R32). -/
theorem flatMap_be32bytes_getElem? (ws : List Word) (i : Nat) {k : Nat} (hk : k < 4) :
    (ws.flatMap be32bytes)[4 * i + k]? = (ws[i]?).map fun w => w.extractLsb' (24 - 8 * k) 8 := by
  induction ws generalizing i with
  | nil => rfl
  | cons w ws ih =>
    rw [List.flatMap_cons]
    cases i with
    | zero =>
      rw [List.getElem?_append_left (by simpa using hk), Nat.mul_zero, Nat.zero_add, be32bytes_getElem? w hk]
      rfl
    | succ i =>
      rw [List.getElem?_append_right (by simp; omega), be32bytes_length, show 4 * (i + 1) + k - 4 = 4 * i + k by omega,
        ih, List.getElem?_cons_succ]

/-- Settles O26, by `blockWords_flatMap_be32bytes`: sixteen words carry 64 bytes, so no lane is ignored. -/
theorem alignedPayloadIsBlockWords : Obligations.AlignedPayloadIsBlockWords := by
  intro ps hps
  have hall : (ps.flatMap be32bytes).length ≤ 64 := by
    rw [flatMap_be32bytes_length, hps]
  rw [payloadBytes, List.take_of_length_le hall, blockWords_flatMap_be32bytes]

/-- Settles O38, by `flatMap_be32bytes_getElem?` on the eight words of V. -/
theorem digestBytes : Obligations.DigestBytes := fun v =>
  ⟨flatMap_be32bytes_length (stateWords v), fun i _ _ hk => flatMap_be32bytes_getElem? (stateWords v) i hk⟩

/-! ### One edge, by the word it moves -/

/-- The word that leaves a command incomplete changes the decoder alone (R23). -/
theorem step_of_part_word {s : State} {w : Word} {ws : List Word} {d : Decoder} (hrst : s.rstN = true) (hrsp : s.rsp = [])
    (hcmd : s.cmdIn = w :: ws) (hd : receiveWord s.dec w = .waiting d) :
    step s = .next { s with dec := d, cmdIn := ws } := by
  simp [step, edge, takeCommandWord, hrst, hrsp, hcmd, hd]

/-- The last word of a command performs it (R37). -/
theorem step_of_last_word {s : State} {w : Word} {ws : List Word} {c : Decoded} (hrst : s.rstN = true) (hrsp : s.rsp = [])
    (hcmd : s.cmdIn = w :: ws) (hc : receiveWord s.dec w = .complete c) :
    step s = perform c { s with dec := .idle, cmdIn := ws } := by
  simp [step, edge, takeCommandWord, hrst, hrsp, hcmd, hc]

/-- A pending response word moves when the host takes it (R39). -/
theorem step_of_response {s : State} {w : Word} {ws : List Word} (hrst : s.rstN = true) (hready : s.rspReady = true)
    (hrsp : s.rsp = w :: ws) : step s = .next (sendResponse w ws s) := by
  simp [step, edge, hrst, hrsp, hready]

/-- A pending response word that the host does not take leaves the block stuck (R109). -/
theorem step_of_response_awaited {s : State} {w : Word} {ws : List Word} (hrst : s.rstN = true)
    (hready : s.rspReady = false) (hrsp : s.rsp = w :: ws) : step s = .fault .responseAwaited := by
  simp [step, edge, hrst, hrsp, hready]

/-- Settles O10, by `step_of_last_word` and `step_of_part_word`; that a step takes one word is log entry 1. -/
theorem stepRunsDecodedCommand : Obligations.StepRunsDecodedCommand :=
  ⟨fun _ _ _ _ => step_of_last_word, fun _ _ _ _ => step_of_last_word, fun _ _ _ _ => step_of_part_word⟩

/-- Settles O14: the pins by their definitions, the step by whether the host takes the word. -/
theorem responseBeforeNextCommand : Obligations.ResponseBeforeNextCommand := by
  intro s w ws hrst hrsp
  refine ⟨?_, ?_, fun hready => step_of_response hrst hready hrsp,
    fun hready => step_of_response_awaited hrst hready hrsp⟩
  · simp [cmdReady, hrsp]
  · simp [rspData, rspValid, hrst, hrsp]

/-- Settles O16: of the effects a step can have, one is that of a reset and one that of a command it completes. -/
theorem partOfCommandHasNoEffect : Obligations.PartOfCommandHasNoEffect := by
  intro s t h hrst hnone
  obtain ⟨hreset, -⟩ | ⟨-, hsame⟩ | ⟨c, -, hc, -⟩ := step_effect h
  · simp [hrst] at hreset
  · exact ⟨hsame.v.symm, hsame.len.symm, hsame.buf.symm, hsame.fsm.symm⟩
  · exact absurd hc (hnone c)

/-! ### A command word by word -/

/-- What the decoder reads is a header, the payload words it announces, and the rest (R46, R54). -/
theorem decode_eq_some {ws rest : List Word} {c : Decoded} (h : decode ws = some (c, rest)) :
    ∃ hd ps, ws = hd :: (ps ++ rest) ∧ ps.length = payloadWords hd ∧
      c = decodeCommand hd (payloadBytes (headerLen hd) ps) := by
  cases ws with
  | nil => cases h
  | cons hd ws =>
    rw [decode] at h
    split at h
    · cases h
    · rename_i henough
      cases h
      exact ⟨hd, ws.take (payloadWords hd), by rw [List.take_append_drop], by rw [List.length_take]; omega, rfl⟩

/-- A header that announces no payload is a whole command (R23). -/
theorem receiveWord_header_alone {w : Word} (h : payloadWords w = 0) :
    receiveWord .idle w = .complete (decodeCommand w []) := if_pos h

/-- A header that announces payload opens the collection (R23). -/
theorem receiveWord_header_opens {w : Word} (h : payloadWords w ≠ 0) :
    receiveWord .idle w = .waiting (.collecting w (payloadWords w) []) := if_neg h

/-- Cutting to LEN after every payload word is cutting once at the end (R47). -/
theorem take_take_append (n : Nat) (xs ys : List Byte) : (xs.take n ++ ys).take n = (xs ++ ys).take n := by
  rw [List.take_append, List.take_append, List.take_take, Nat.min_self, List.length_take]
  congr 2
  omega

/-- Inside a command, the payload words still to come, one at least, perform it with the bytes received before and the
bytes they carry (R37, R47). -/
theorem session_collects (h p : Word) (ps rest : List Word) (bs : List Byte) (s : State) (hrst : s.rstN = true)
    (hrsp : s.rsp = []) (hdec : s.dec = .collecting h (ps.length + 1) bs) (hcmd : s.cmdIn = p :: (ps ++ rest)) :
    session (ticks (ps.length + 1)) s =
      perform (decodeCommand h ((bs ++ (p :: ps).flatMap be32bytes).take (headerLen h)))
        { s with dec := .idle, cmdIn := rest } := by
  induction ps generalizing p bs s with
  | nil =>
    have hlast : receiveWord s.dec p = .complete (decodeCommand h ((bs ++ be32bytes p).take (headerLen h))) := by
      rw [hdec]
      rfl
    rw [List.length_nil, session_one_tick, step_of_last_word hrst hrsp hcmd hlast]
    simp
  | cons q ps ih =>
    have hmore : receiveWord s.dec p =
        .waiting (.collecting h (ps.length + 1) ((bs ++ be32bytes p).take (headerLen h))) := by
      rw [hdec]
      rfl
    have hrest := ih q ((bs ++ be32bytes p).take (headerLen h)) { s with
      dec := .collecting h (ps.length + 1) ((bs ++ be32bytes p).take (headerLen h)), cmdIn := q :: (ps ++ rest) }
      hrst hrsp rfl rfl
    rw [take_take_append, List.append_assoc] at hrest
    exact (session_tick_of_next _ (step_of_part_word hrst hrsp hcmd hmore)).trans hrest

/-- From a command boundary, the words of a command perform it (R37, R46, R47). -/
theorem session_words_of_command {s : State} {c : Decoded} {rest : List Word} (hrst : s.rstN = true) (hrsp : s.rsp = [])
    (hdec : s.dec = .idle) (hdecode : decode s.cmdIn = some (c, rest)) :
    session (ticks (s.cmdIn.length - rest.length)) s = perform c { s with cmdIn := rest } := by
  obtain ⟨hd, ps, hcmd, hps, rfl⟩ := decode_eq_some hdecode
  have hboundary : ({ s with dec := .idle, cmdIn := rest } : State) = { s with cmdIn := rest } := by rw [hdec]
  have hcount : s.cmdIn.length - rest.length = ps.length + 1 := by
    rw [hcmd, List.length_cons, List.length_append]
    omega
  rw [hcount, ← hboundary]
  cases ps with
  | nil =>
    have hwhole : receiveWord s.dec hd = .complete (decodeCommand hd (payloadBytes (headerLen hd) [])) := by
      rw [hdec, receiveWord_header_alone hps.symm, payloadBytes, List.flatMap_nil, List.take_nil]
    rw [List.length_nil, session_one_tick]
    exact step_of_last_word hrst hrsp hcmd hwhole
  | cons p ps =>
    have hopens : receiveWord s.dec hd = .waiting (.collecting hd (ps.length + 1) []) := by
      rw [hdec, receiveWord_header_opens (by simp [← hps]), ← hps, List.length_cons]
    rw [List.length_cons, ticks_succ, session_tick_of_next _ (step_of_part_word hrst hrsp hcmd hopens)]
    exact session_collects hd p ps rest [] { s with dec := _, cmdIn := _ } hrst hrsp rfl rfl

/-- Settles O11, by `session_words_of_command`; that a word takes one step is log entry 1. -/
theorem wordsOfCommandRunIt : Obligations.WordsOfCommandRunIt := fun _ _ _ => session_words_of_command

/-! ### Responses -/

/-- Edges after edges that reach a state are edges from that state. -/
theorem session_ticks_add {m : Nat} (n : Nat) {s t : State} (h : session (ticks m) s = .next t) :
    session (ticks (m + n)) s = session (ticks n) t := by
  rw [ticks_add, session_append _ h]

/-- Settles O12, by induction on the words pending; that a word takes one step is log entry 1. -/
theorem responseIsDelivered : Obligations.ResponseIsDelivered := by
  intro s hrst hready
  induction hrsp : s.rsp generalizing s with
  | nil =>
    cases s
    cases hrsp
    simp [ticks]
  | cons w ws ih =>
    rw [List.length_cons, ticks_succ, session_tick_of_next _ (step_of_response hrst hready hrsp),
      ih (sendResponse w ws s) hrst hready rfl]
    simp [sendResponse]

/-- Every command is answered with a response of one to nine words (R51, R89). -/
theorem CommandEffect.response_length {c : Decoded} {s t : State} (h : CommandEffect c s t) :
    t.rsp ≠ [] ∧ t.rsp.length ≤ 9 := by
  cases h with
  | answer _ _ _ _ _ short => exact ⟨by simp, Nat.succ_le_succ short⟩
  | reset => simp
  | write => simp
  | finalize => simp
  | sum => simp

/-- Settles O13: the command's words perform it (`session_words_of_command`), then its response moves to the host
(`responseIsDelivered`). -/
theorem everyCommandIsAnswered : Obligations.EveryCommandIsAnswered := by
  intro s c rest hrst hready hrsp hdec hdecode
  obtain ⟨t, ht, heffect⟩ := perform_answers c { s with cmdIn := rest }
  obtain ⟨hne, hshort⟩ := heffect.response_length
  obtain ⟨-, htRst, htReady, -, htOut⟩ := heffect.frame
  refine ⟨t, ht, hne, hshort, ?_⟩
  have hperformed := (session_words_of_command hrst hrsp hdec hdecode).trans ht
  rw [session_ticks_add _ hperformed, responseIsDelivered t (htRst.trans hrst) (htReady.trans hready), htOut]

/-! ### Commands done twice -/

/-- Answering a second time in the same way changes nothing. -/
theorem respond_self {s : State} {opc : Byte} {rc : ResponseCode} {data : List Word}
    (h : s.rsp = statusWord opc rc :: data) : respond opc rc data s = s := by
  rw [respond, ← h]

/-- Absorbing no bytes into a BUF that is short of a block changes nothing (R74). -/
theorem absorb_nil {s : State} (h : s.buf.length < 64) : absorb [] s = s := by
  have habsorbed : absorbed s.v s.buf [] = (s.v, s.buf) := by
    rw [absorbed, List.append_nil, show s.buf.length / Config.blockBytes = 0 from Nat.div_eq_of_lt h]
    rfl
  simp [absorb, habsorbed, countBits]

theorem execWrite_of_accepting {s : State} (hf : s.fsm = .accepting) (bs : List Byte) :
    execWrite bs s = .next (respond opcWrite .ok [BitVec.ofNat 32 bs.length] (absorb bs s)) := by
  simp [execWrite, hf]

theorem execFinalize_of_finalized {s : State} (hf : s.fsm = .finalized) :
    execFinalize s = .next (respond opcFinalize .ok (stateWords s.v) s) := by
  simp [execFinalize, hf]

theorem execSum_nil_of_finalized {s : State} (hf : s.fsm = .finalized) :
    execSum [] s = .next (respond opcSum .ok (stateWords s.v) s) := by
  simp [execSum, hf]

theorem execSum_of_finalized {s : State} (hf : s.fsm = .finalized) {bs : List Byte} (hbs : bs ≠ []) :
    execSum bs s = .next (refuse opcSum .finalized s) := by
  simp [execSum, hf, hbs]

/-- States with the same message state and the same ports are the same. -/
theorem SameMessage.eq_of_ports {s t : State} (h : SameMessage s t) (hrsp : s.rsp = t.rsp)
    (hports : t.dec = s.dec ∧ t.rstN = s.rstN ∧ t.rspReady = s.rspReady ∧ t.cmdIn = s.cmdIn ∧ t.rspOut = s.rspOut) :
    s = t := by
  obtain ⟨hv, hlen, hbuf, hfsm⟩ := h
  obtain ⟨hdec, hrst, hready, hcmd, hout⟩ := hports
  cases s
  cases t
  exact (State.mk.injEq ..).mpr ⟨hv, hlen, hbuf, hfsm, hdec.symm, hrsp, hrst.symm, hready.symm, hcmd.symm, hout.symm⟩

/-- A command that left V, L, BUF and FSM as they were answers the same again and does no more (R87). -/
theorem perform_again_of_sameMessage {c : Decoded} {s t : State} (h : perform c s = .next t) (hsame : SameMessage s t) :
    perform c t = .next t := by
  obtain ⟨t', u, ht', hu, hrsp, hkept⟩ := perform_sameMessage hsame c
  cases h.symm.trans ht'
  obtain rfl : t = u := hkept.eq_of_ports hrsp (perform_effect hu).frame
  exact hu

/-- What a command leaves, the same command without payload leaves as it is (R38). -/
theorem perform_twice {c : Decoded} {s t : State}
    (hc : ∀ bs, bs ≠ [] → c ≠ .command (.write bs) ∧ c ≠ .command (.sum bs)) (h : perform c s = .next t) :
    perform c t = .next t := by
  cases perform_effect h with
  | answer => exact perform_again_of_sameMessage h ⟨rfl, rfl, rfl, rfl⟩
  | reset => rfl
  | write bs _ hf =>
    obtain rfl : bs = [] := by
      by_contra hbs
      exact (hc bs hbs).1 rfl
    have hshort : (absorbed s.v s.buf []).2.length < 64 := by
      rw [absorbed_length]
      omega
    rw [perform_command, exec_write, execWrite_of_accepting (s := respond _ _ _ (absorb [] s)) hf, absorb_nil hshort,
      respond_self rfl]
  | finalize =>
    rw [perform_command, exec_finalize, execFinalize_of_finalized (finish_fsm ..), respond_self (by simp)]
  | sum bs =>
    obtain rfl : bs = [] := by
      by_contra hbs
      exact (hc bs hbs).2 rfl
    rw [perform_command, exec_sum, execSum_nil_of_finalized (finish_fsm ..), respond_self (by simp)]

/-- Settles O50: the first clause is `perform_twice`; an empty WRITE absorbs nothing; a SUM with payload leaves FINALIZED,
where the second is refused. -/
theorem idempotentCommands : Obligations.IdempotentCommands := by
  refine ⟨fun c s t => perform_twice, fun s t hshort h => ?_, fun bs s t u hbs hf ht hu => ?_⟩
  · cases perform_effect (c := .command (.write [])) h with
    | answer => rfl
    | write => rw [absorb_nil hshort]; rfl
  · have hfinalized : t.fsm = .finalized := execSum_fsm hf ht
    cases (execSum_of_finalized hfinalized hbs).symm.trans hu
    simp [refuse, respond]

/-! ### Streams of commands -/

/-- Each command's words are as its own lemma says (R45 to R47). -/
theorem encoding_statement : ∀ i, Laws.Encoding.Statement i
  | .reset => Laws.Encoding.reset
  | .write bs => Laws.Encoding.write bs
  | .finalize => Laws.Encoding.finalize
  | .sum bs => Laws.Encoding.sum bs
  | .status => Laws.Encoding.status

/-- A header with a command's OPC, RSVD 0 and its length as LEN is that command's (R53, R54). -/
theorem decodeCommand_of_fields {i : Instr} {hd : Word} (hopc : headerOpc hd = i.opc) (hrsvd : headerRsvd hd = 0)
    (hlen : headerLen hd = i.payload.length) : decodeCommand hd i.payload = .command i := by
  cases i <;>
    simp [decodeCommand, hopc, hrsvd, hlen, Instr.opc, Instr.payload, opcReset, opcWrite, opcFinalize, opcSum, opcStatus]

/-- The words of a well-formed command, whatever comes after them, are read back as that command (R54, R56). -/
theorem decode_encode_append {i : Instr} (h : i.wellFormed = true) (rest : List Word) :
    decode (encode i ++ rest) = some (.command i, rest) := by
  obtain ⟨hd, ps, hencode, hopc, hrsvd, hlen, hwords, hbytes⟩ := encoding_statement i h
  rw [hencode, List.cons_append, decode, if_neg (by simp [hwords]), hwords, List.take_left, List.drop_left, hbytes,
    decodeCommand_of_fields hopc hrsvd hlen]

/-- No command enters FAULT (R93). -/
theorem CommandEffect.notFault {c : Decoded} {s t : State} (h : CommandEffect c s t) (hs : s.fsm ≠ .fault) :
    t.fsm ≠ .fault := by
  cases h with
  | answer => exact hs
  | reset => simp
  | write => exact hs
  | finalize => simp
  | sum => simp

/-- A run that takes the responses of well-formed commands ends with all of them returned. The commands are also performed
one after the other on a second state that agrees with the first in V, L, BUF and FSM, and the run keeps pace with that. -/
theorem session_runs_stream (is : List Instr) (s s' : State) (hsame : SameMessage s s') (hrst : s.rstN = true)
    (hready : s.rspReady = true) (hrsp : s.rsp = []) (hdec : s.dec = .idle) (hwf : ∀ i ∈ is, i.wellFormed = true)
    (hcmd : s.cmdIn = is.flatMap encode) :
    ∃ n t u, session (ticks n) s = .next t ∧ t.AllReturned ∧ (s.fsm ≠ .fault → t.fsm ≠ .fault) ∧
      execAll is s' = .next u ∧ SameMessage t u ∧ t.rspOut = s.rspOut ++ responsesAll is s' := by
  induction is generalizing s s' with
  | nil => exact ⟨0, s, s', rfl, ⟨hcmd, hdec, hrsp⟩, id, rfl, hsame, (List.append_nil _).symm⟩
  | cons i is ih =>
    obtain ⟨hi, his⟩ := List.forall_mem_cons.1 hwf
    have hdecode : decode s.cmdIn = some (.command i, is.flatMap encode) := by
      rw [hcmd, List.flatMap_cons, decode_encode_append hi]
    obtain ⟨t, ht, -, -, hfirst⟩ := everyCommandIsAnswered s _ _ hrst hready hrsp hdec hdecode
    obtain ⟨t', u, ht', hu, hresponse, hagree⟩ := perform_sameMessage (s := { s with cmdIn := is.flatMap encode })
      ⟨hsame.v, hsame.len, hsame.buf, hsame.fsm⟩ (.command i)
    cases ht.symm.trans ht'
    obtain ⟨htDec, htRst, htReady, htCmd, -⟩ := (perform_effect ht).frame
    obtain ⟨n, t₂, u₂, hrest, hreturned, hfault, hall, hagree₂, hout⟩ :=
      ih { t with rsp := [], rspOut := s.rspOut ++ t.rsp } u ⟨hagree.v, hagree.len, hagree.buf, hagree.fsm⟩
        (htRst.trans hrst) (htReady.trans hready) rfl (htDec.trans hdec) his htCmd
    refine ⟨_, t₂, u₂, (session_ticks_add n hfirst).trans hrest, hreturned,
      fun hf => hfault ((perform_effect ht).notFault hf), ?_, hagree₂, ?_⟩
    · rw [execAll_cons_of_next is hu, hall]
    · have hresponses : responsesAll (i :: is) s' = u.rsp ++ responsesAll is u := by
        rw [responsesAll, show exec i s' = .next u from hu]
      rw [hout, hresponses, ← hresponse, List.append_assoc]

/-- Settles O56, by `session_runs_stream` with the run's own first state as the second. -/
theorem commandStreamRunsInOrder : Obligations.CommandStreamRunsInOrder := by
  intro is s hrst hready hrsp hdec hwf hcmd
  obtain ⟨n, t, u, hrun, hreturned, hfault, hall, ⟨hv, hlen, hbuf, hfsm⟩, hout⟩ :=
    session_runs_stream is s s ⟨rfl, rfl, rfl, rfl⟩ hrst hready hrsp hdec hwf hcmd
  exact ⟨n, t, u, hrun, hreturned, fun hf => ⟨hreturned, hfault hf⟩, hall, hv, hlen, hbuf, hfsm, hout⟩

end Sys2Proof.Machine
end

section
/-! PROOF. The family of spec/30_encoding.md: the fields of a header, what the decoder makes of it (R45 to R48, R53 to R55),
the response each command gets (R49 to R51), and the expansions of the pseudo-instructions (R57). -/

namespace Sys2Proof.Machine

/-- Settles O19, by `decode_encode_append`. -/
theorem decodeOfEncode : Obligations.DecodeOfEncode := fun _ rest h => decode_encode_append h rest

/-! ### The fields of a header as numbers and as masks (R45, R53) -/

theorem headerOpc_toNat (h : Word) : (headerOpc h).toNat = h.toNat / 2 ^ 24 := by
  rw [headerOpc, BitVec.extractLsb'_toNat, Nat.shiftRight_eq_div_pow]
  omega

theorem headerRsvd_toNat (h : Word) : (headerRsvd h).toNat = h.toNat / 2 ^ 16 % 2 ^ 8 := by
  rw [headerRsvd, BitVec.extractLsb'_toNat, Nat.shiftRight_eq_div_pow]

theorem headerLen_eq_mod (h : Word) : headerLen h = h.toNat % 2 ^ 16 := by
  rw [headerLen, BitVec.extractLsb'_toNat, Nat.shiftRight_zero]

/-- An OPC field holds a value exactly when the bits above 24 have it. -/
theorem headerOpc_eq_iff (h : Word) (opc : Byte) : headerOpc h = opc ↔ h.toNat / 2 ^ 24 = opc.toNat := by
  rw [← BitVec.toNat_inj, headerOpc_toNat]

theorem headerRsvd_eq_zero_iff (h : Word) : headerRsvd h = 0 ↔ h.toNat / 2 ^ 16 % 2 ^ 8 = 0 := by
  rw [← BitVec.toNat_inj, headerRsvd_toNat]
  rfl

/-- R46's length by the bits of the header. -/
theorem payloadWords_eq (h : Word) : payloadWords h =
    if h.toNat / 2 ^ 24 = 2 ∨ h.toNat / 2 ^ 24 = 4 then (h.toNat % 2 ^ 16 + 3) / 4 else 0 := by
  simp only [payloadWords, headerOpc_eq_iff, headerLen_eq_mod]
  rfl

theorem header_toNat (opc rsvd : Byte) (len : BitVec 16) :
    (header opc rsvd len).toNat = opc.toNat * 2 ^ 24 + rsvd.toNat * 2 ^ 16 + len.toNat := by
  rw [header, BitVec.toNat_append, ← Nat.shiftLeft_add_eq_or_of_lt len.isLt, BitVec.toNat_append,
    ← Nat.shiftLeft_add_eq_or_of_lt rsvd.isLt, Nat.shiftLeft_eq, Nat.shiftLeft_eq]
  omega

/-- A header is its three fields (R45). -/
theorem eq_header_iff (h : Word) (opc rsvd : Byte) (len : BitVec 16) :
    h = header opc rsvd len ↔ headerOpc h = opc ∧ headerRsvd h = rsvd ∧ headerLen h = len.toNat := by
  constructor
  · rintro rfl
    simp
  · rintro ⟨rfl, rfl, hlen⟩
    apply BitVec.eq_of_toNat_eq
    rw [header_toNat, headerOpc_toNat, headerRsvd_toNat, ← hlen, headerLen_eq_mod]
    omega

/-- The mask of a format H row keeps the whole header (R53). -/
theorem and_full_mask_eq_header_iff (h : Word) (opc : Byte) :
    h &&& 0xFFFFFFFF = header opc 0 0 ↔ headerOpc h = opc ∧ headerRsvd h = 0 ∧ headerLen h = 0 := by
  rw [show (0xFFFFFFFF : Word) = BitVec.allOnes 32 from rfl, BitVec.and_allOnes, eq_header_iff]
  rfl

/-- The mask of a format P row keeps OPC and RSVD and drops LEN (R53). -/
theorem and_len_mask_eq_header_iff (h : Word) (opc : Byte) :
    h &&& 0xFFFF0000 = header opc 0 0 ↔ headerOpc h = opc ∧ headerRsvd h = 0 := by
  have hopc : headerOpc (h &&& 0xFFFF0000) = headerOpc h := by
    rw [headerOpc, BitVec.extractLsb'_and]
    exact BitVec.and_allOnes
  have hrsvd : headerRsvd (h &&& 0xFFFF0000) = headerRsvd h := by
    rw [headerRsvd, BitVec.extractLsb'_and]
    exact BitVec.and_allOnes
  have hlen : headerLen (h &&& 0xFFFF0000) = 0 := by
    rw [headerLen, BitVec.extractLsb'_and]
    exact congrArg BitVec.toNat BitVec.and_zero
  rw [eq_header_iff, hopc, hrsvd, hlen]
  simp

/-- LEN by its mask (R53). -/
theorem headerLen_eq_and (h : Word) : headerLen h = (h &&& 0x0000FFFF).toNat := by
  rw [headerLen_eq_mod, BitVec.toNat_and]
  exact (Nat.and_two_pow_sub_one_eq_mod h.toNat 16).symm

/-! ### What the decoder makes of a header (R48, R54, R55) -/

/-- What LEN and the payload bytes have to be for a header with the command's OPC: WRITE and SUM carry the bytes, the others
have LEN 0 (R45, R48). -/
def Carries (len : Nat) (bs : List Byte) : Instr → Prop
  | .write p | .sum p => p = bs
  | .reset | .finalize | .status => len = 0

/-- The decoder's answer to a header: a command whose fields it has, or why it is none (R48, R55). -/
theorem decodeCommand_cases (h : Word) (bs : List Byte) :
    (∃ i, decodeCommand h bs = .command i ∧ headerOpc h = i.opc ∧ headerRsvd h = 0 ∧ Carries (headerLen h) bs i) ∨
    (decodeCommand h bs = .malformed (headerOpc h) ∧
      ((headerOpc h = opcWrite ∨ headerOpc h = opcSum) ∧ headerRsvd h ≠ 0 ∨
        (headerOpc h = opcReset ∨ headerOpc h = opcFinalize ∨ headerOpc h = opcStatus) ∧
          (headerRsvd h ≠ 0 ∨ headerLen h ≠ 0))) ∨
    (decodeCommand h bs = .illegal (headerOpc h) ∧ ¬(headerOpc h = opcWrite ∨ headerOpc h = opcSum) ∧
      ¬(headerOpc h = opcReset ∨ headerOpc h = opcFinalize ∨ headerOpc h = opcStatus)) := by
  unfold decodeCommand
  split
  · rename_i hP
    split
    · rename_i hrsvd
      exact .inr (.inl ⟨rfl, .inl ⟨hP, hrsvd⟩⟩)
    · rename_i hrsvd
      split
      · rename_i hopc
        exact .inl ⟨_, rfl, hopc, not_not.1 hrsvd, rfl⟩
      · rename_i hopc
        exact .inl ⟨_, rfl, hP.resolve_left hopc, not_not.1 hrsvd, rfl⟩
  · rename_i hP
    split
    · rename_i hH
      split
      · rename_i hbad
        exact .inr (.inl ⟨rfl, .inr ⟨hH, hbad⟩⟩)
      · rename_i hgood
        obtain ⟨hrsvd, hlen⟩ := not_or.1 hgood
        split
        · rename_i hopc
          exact .inl ⟨_, rfl, hopc, not_not.1 hrsvd, not_not.1 hlen⟩
        · rename_i hreset
          split
          · rename_i hopc
            exact .inl ⟨_, rfl, hopc, not_not.1 hrsvd, not_not.1 hlen⟩
          · rename_i hfinalize
            exact .inl ⟨_, rfl, (hH.resolve_left hreset).resolve_left hfinalize, not_not.1 hrsvd, not_not.1 hlen⟩
    · rename_i hH
      exact .inr (.inr ⟨rfl, hP, hH⟩)

/-- A header is a command exactly when it has that command's fields (R48, R53). -/
theorem decodeCommand_eq_command_iff (h : Word) (bs : List Byte) (i : Instr) :
    decodeCommand h bs = .command i ↔ headerOpc h = i.opc ∧ headerRsvd h = 0 ∧ Carries (headerLen h) bs i := by
  constructor
  · intro hi
    obtain ⟨j, hj, hfields⟩ | ⟨hbad, -⟩ | ⟨hbad, -⟩ := decodeCommand_cases h bs
    · cases hi.symm.trans hj
      exact hfields
    · cases hi.symm.trans hbad
    · cases hi.symm.trans hbad
  · rintro ⟨hopc, hrsvd, hcarries⟩
    cases i <;>
      simp_all [Carries, decodeCommand, Instr.opc, opcReset, opcWrite, opcFinalize, opcSum, opcStatus]

/-- Settles O22: the fields that make a header a command are those its row's mask and match fix. -/
theorem opcodeMap : Obligations.OpcodeMap := by
  intro h bs
  refine ⟨?_, ?_, ?_, ?_, ?_, headerLen_eq_and h⟩
  · exact (decodeCommand_eq_command_iff ..).trans (and_full_mask_eq_header_iff h opcReset).symm
  · rw [decodeCommand_eq_command_iff, show (0x02000000 : Word) = header opcWrite 0 0 from rfl, and_len_mask_eq_header_iff]
    simp [Carries, Instr.opc]
  · exact (decodeCommand_eq_command_iff ..).trans (and_full_mask_eq_header_iff h opcFinalize).symm
  · rw [decodeCommand_eq_command_iff, show (0x04000000 : Word) = header opcSum 0 0 from rfl, and_len_mask_eq_header_iff]
    simp [Carries, Instr.opc]
  · exact (decodeCommand_eq_command_iff ..).trans (and_full_mask_eq_header_iff h opcStatus).symm

/-- Settles O21: each of the ten sequences is decoded by computation. -/
theorem sampleHeadersDecode : Obligations.SampleHeadersDecode := by
  unfold Obligations.SampleHeadersDecode
  decide

/-- A header that is no command is malformed or illegal, with its own OPC (R55). -/
theorem decodeCommand_of_not_command {h : Word} {bs : List Byte} (hnot : ∀ i, decodeCommand h bs ≠ .command i) :
    decodeCommand h bs = .malformed (headerOpc h) ∨ decodeCommand h bs = .illegal (headerOpc h) := by
  obtain ⟨i, hi, -⟩ | ⟨hbad, -⟩ | ⟨hbad, -⟩ := decodeCommand_cases h bs
  · exact absurd hi (hnot i)
  · exact .inl hbad
  · exact .inr hbad

/-- The OPCs of the map are 1 to 5 (R53). -/
theorem opc_range (i : Instr) : 1 ≤ i.opc.toNat ∧ i.opc.toNat ≤ 5 := by
  cases i <;> simp [Instr.opc, opcReset, opcWrite, opcFinalize, opcSum, opcStatus]

/-- An OPC of 0 or from 6 on is illegal (R55). -/
theorem decodeCommand_of_opc_outside_map {h : Word} (bs : List Byte)
    (hopc : h.toNat / 2 ^ 24 = 0 ∨ 6 ≤ h.toNat / 2 ^ 24) : decodeCommand h bs = .illegal (headerOpc h) := by
  obtain ⟨i, -, hi, -⟩ | ⟨-, hmap⟩ | ⟨hillegal, -⟩ := decodeCommand_cases h bs
  · have hrange := opc_range i
    rw [headerOpc_eq_iff] at hi
    omega
  · simp [headerOpc_eq_iff, opcReset, opcWrite, opcFinalize, opcSum, opcStatus] at hmap
    omega
  · exact hillegal

/-- The headers that are commands, by the bits of their fields (R48). -/
theorem decodeCommand_is_command_iff (h : Word) (bs : List Byte) :
    (∃ i, decodeCommand h bs = .command i) ↔
      (1 ≤ h.toNat / 2 ^ 24 ∧ h.toNat / 2 ^ 24 ≤ 5) ∧ h.toNat / 2 ^ 16 % 2 ^ 8 = 0 ∧
      (h.toNat / 2 ^ 24 = 1 ∨ h.toNat / 2 ^ 24 = 3 ∨ h.toNat / 2 ^ 24 = 5 → h.toNat % 2 ^ 16 = 0) := by
  rw [← headerRsvd_eq_zero_iff, ← headerLen_eq_mod]
  constructor
  · rintro ⟨i, hi⟩
    obtain ⟨hopc, hrsvd, hcarries⟩ := (decodeCommand_eq_command_iff ..).1 hi
    have hnum := (headerOpc_eq_iff ..).1 hopc
    refine ⟨hnum ▸ opc_range i, hrsvd, ?_⟩
    rw [hnum]
    cases i with
    | write | sum => simp [Instr.opc, opcWrite, opcSum]
    | reset | finalize | status => exact fun _ => hcarries
  · rintro ⟨hrange, hrsvd, hlen⟩
    obtain hi | ⟨-, hbad⟩ | ⟨-, hnotP, hnotH⟩ := decodeCommand_cases h bs
    · exact hi.imp fun _ => And.left
    · simp [headerOpc_eq_iff, hrsvd, opcReset, opcFinalize, opcStatus] at hbad
      exact absurd (hlen hbad.1) hbad.2
    · simp [headerOpc_eq_iff, opcReset, opcWrite, opcFinalize, opcSum, opcStatus] at hnotP hnotH
      omega

/-- A refusal changes the response port alone (R89). -/
theorem refuse_eq (opc : Byte) (rc : ResponseCode) (s : State) :
    refuse opc rc s = { s with rsp := [opc ++ (codeOf rc).setWidth 24] } := by
  rw [refuse, respond, statusWord_eq]

/-- A header that is no command is refused, malformed or illegal alike: with FAULT in FAULT, else with ILLEGAL (R91). -/
theorem perform_not_command {h : Word} {bs : List Byte} (hnot : ∀ i, decodeCommand h bs ≠ .command i) (s : State) :
    perform (decodeCommand h bs) s =
      .next (refuse (headerOpc h) (if s.fsm = .fault then .fault else .illegal) s) := by
  have hperform : perform (decodeCommand h bs) s = execIllegal (headerOpc h) s := by
    obtain hbad | hbad := decodeCommand_of_not_command hnot
    · rw [hbad]
      rfl
    · rw [hbad]
      rfl
  obtain ⟨hf, hnext⟩ | ⟨hf, hnext⟩ := execIllegal_cases (headerOpc h) s
  · rw [hperform, hnext, if_pos hf]
  · rw [hperform, hnext, if_neg hf]

/-- Settles O24, by `decodeCommand_cases` for the decoder and `perform_not_command` for the answer. -/
theorem illFormedHeadersRefused : Obligations.IllFormedHeadersRefused := by
  refine ⟨decodeCommand_is_command_iff, fun h bs => decodeCommand_of_opc_outside_map bs, payloadWords_eq,
    fun h bs s hnot hf => ?_, fun h bs s hnot hf => ?_⟩
  · rw [perform_not_command hnot, if_neg hf, refuse_eq]
    rfl
  · rw [perform_not_command hnot, if_pos hf, refuse_eq]
    rfl

/-! ### The words a command takes and the payload they carry (R46, R47) -/

theorem payloadBytes_length {n : Nat} {ps : List Word} (hps : ps.length = (n + 3) / 4) :
    (payloadBytes n ps).length = n := by
  rw [payloadBytes, List.length_take, flatMap_be32bytes_length]
  omega

/-- Settles O23: the decoder answers when the words that R46 counts are there, and leaves the rest. -/
theorem commandLength : Obligations.CommandLength := by
  intro h ws need
  have hneed : payloadWords h = need := payloadWords_eq h
  refine ⟨fun hshort => ?_, fun henough => ?_, hneed ▸ payloadWords_le h⟩
  · rw [decode, hneed, if_pos hshort]
  · rw [decode, hneed, if_neg (Nat.not_lt.2 henough)]
    exact ⟨_, rfl⟩

/-- Settles O25: byte `k` is byte `k mod 4` of word `k div 4`, by `flatMap_be32bytes_getElem?`. -/
theorem payloadByteLanes : Obligations.PayloadByteLanes := by
  refine fun n ps hps => ⟨payloadBytes_length hps, fun k hk => ?_⟩
  rw [payloadBytes, List.getElem?_take_of_lt hk]
  calc (ps.flatMap be32bytes)[k]?
      = (ps.flatMap be32bytes)[4 * (k / 4) + k % 4]? := by rw [Nat.div_add_mod]
    _ = (ps[k / 4]?).map fun p => p.extractLsb' (24 - 8 * (k % 4)) 8 :=
        flatMap_be32bytes_getElem? ps (k / 4) (Nat.mod_lt k (by decide))

/-- What a command's words carry is its payload, and LEN counts it (R46, R47). -/
theorem payload_of_decoded {h : Word} {ps : List Word} {i : Instr} (hps : ps.length = payloadWords h)
    (hi : decodeCommand h (payloadBytes (headerLen h) ps) = .command i) :
    headerLen h = i.payload.length ∧ ps.length = (i.payload.length + 3) / 4 ∧
      payloadBytes i.payload.length ps = i.payload := by
  obtain ⟨hopc, -, hcarries⟩ := (decodeCommand_eq_command_iff ..).1 hi
  rw [payloadWords, hopc] at hps
  cases i with
  | write p | sum p =>
    have hp : p = payloadBytes (headerLen h) ps := hcarries
    have hlen : p.length = headerLen h := hp ▸ payloadBytes_length hps
    rw [show (Instr.payload _) = p from rfl, hlen]
    exact ⟨rfl, hps, hp.symm⟩
  | reset | finalize | status => exact ⟨hcarries, hps, rfl⟩

/-- Settles O20: the decoder takes a header and its words (`decode_eq_some`), whose fields are the command's. -/
theorem decodedWordsAreTheEncoding : Obligations.DecodedWordsAreTheEncoding := by
  intro ws rest i hdecode
  obtain ⟨h, ps, hws, hps, hi⟩ := decode_eq_some hdecode
  obtain ⟨hlen, hcount, hbytes⟩ := payload_of_decoded hps hi.symm
  obtain ⟨hopc, hrsvd, -⟩ := (decodeCommand_eq_command_iff ..).1 hi.symm
  have hfits : i.payload.length < 65536 := hlen ▸ headerLen_lt h
  have hheader : h = header i.opc 0 (BitVec.ofNat 16 i.payload.length) := by
    rw [eq_header_iff, BitVec.toNat_ofNat, Nat.mod_eq_of_lt hfits]
    exact ⟨hopc, hrsvd, hlen⟩
  refine ⟨decide_eq_true (Nat.le_of_lt_succ hfits), h, ps, hws, ?_, ?_, hbytes⟩
  · rw [encode, ← hheader, List.head?_cons]
  · rw [encode, List.length_cons, packWords_length, hcount]

/-! ### Responses (R49 to R51) -/

/-- The code and the data words of the response to a command performed in `s` that leaves `t` (R51). -/
inductive ResponseData (s t : State) : Decoded → ResponseCode → List Word → Prop where
  | refused (c : Decoded) {rc : ResponseCode} (h : rc ≠ .ok) : ResponseData s t c rc []
  | reset : ResponseData s t (.command .reset) .ok []
  | write (bs : List Byte) : ResponseData s t (.command (.write bs)) .ok [BitVec.ofNat 32 bs.length]
  | finalize : ResponseData s t (.command .finalize) .ok (stateWords t.v)
  | sum (bs : List Byte) : ResponseData s t (.command (.sum bs)) .ok (stateWords t.v)
  | status : ResponseData s t (.command .status) .ok [statusRegister s]

/-- Finishing answers with the V it leaves (R79). -/
theorem finish_response (opc : Byte) (s : State) :
    (finish opc s).rsp = statusWord opc .ok :: stateWords (finish opc s).v := by
  rw [finish_rsp, finish_v]

/-- Every command is answered with a status word that echoes its OPC and the data words of its code (R49, R51). -/
theorem perform_response (c : Decoded) (s : State) : ∃ t rc ds, perform c s = .next t ∧
    t.rsp = statusWord c.opc rc :: ds ∧ ResponseData s t c rc ds := by
  cases c with
  | command i =>
    cases i with
    | reset =>
      obtain ⟨-, h⟩ | ⟨-, h⟩ := execReset_cases s
      · exact ⟨_, _, _, h, rfl, .refused _ (by decide)⟩
      · exact ⟨_, _, _, h, rfl, .reset⟩
    | write bs =>
      obtain ⟨-, h⟩ | ⟨-, rfl, h⟩ | ⟨-, -, h⟩ | ⟨-, h⟩ := execWrite_cases bs s
      · exact ⟨_, _, _, h, rfl, .refused _ (by decide)⟩
      · exact ⟨_, _, _, h, rfl, .write []⟩
      · exact ⟨_, _, _, h, rfl, .refused _ (by decide)⟩
      · exact ⟨_, _, _, h, rfl, .write bs⟩
    | finalize =>
      obtain ⟨-, h⟩ | ⟨-, h⟩ | ⟨-, h⟩ := execFinalize_cases s
      · exact ⟨_, _, _, h, rfl, .refused _ (by decide)⟩
      · exact ⟨_, _, _, h, rfl, .finalize⟩
      · exact ⟨_, _, _, h, finish_response .., .finalize⟩
    | sum bs =>
      obtain ⟨-, h⟩ | ⟨-, -, h⟩ | ⟨-, -, h⟩ | ⟨-, h⟩ := execSum_cases bs s
      · exact ⟨_, _, _, h, rfl, .refused _ (by decide)⟩
      · exact ⟨_, _, _, h, rfl, .sum bs⟩
      · exact ⟨_, _, _, h, rfl, .refused _ (by decide)⟩
      · exact ⟨_, _, _, h, finish_response .., .sum bs⟩
    | status => exact ⟨_, _, _, rfl, rfl, .status⟩
  | malformed opc =>
    obtain ⟨-, h⟩ | ⟨-, h⟩ := execMalformed_cases opc s <;> exact ⟨_, _, _, h, rfl, .refused _ (by decide)⟩
  | illegal opc =>
    obtain ⟨-, h⟩ | ⟨-, h⟩ := execIllegal_cases opc s <;> exact ⟨_, _, _, h, rfl, .refused _ (by decide)⟩

/-- The OPC a command is answered with is its header's (R49). -/
theorem decodeCommand_opc (h : Word) (bs : List Byte) : (decodeCommand h bs).opc = headerOpc h := by
  obtain ⟨i, hi, hopc, -⟩ | ⟨hbad, -⟩ | ⟨hbad, -⟩ := decodeCommand_cases h bs
  · rw [hi, hopc]
    cases i <;> rfl
  · rw [hbad]
    rfl
  · rw [hbad]
    rfl

/-- A status word as a number: the OPC above 24 bits that hold the code (R49). -/
theorem statusWord_toNat (opc : Byte) (rc : ResponseCode) :
    (statusWord opc rc).toNat = opc.toNat * 2 ^ 24 + (codeOf rc).toNat := by
  rw [statusWord_eq, BitVec.toNat_append, ← Nat.shiftLeft_add_eq_or_of_lt (BitVec.isLt _), Nat.shiftLeft_eq,
    BitVec.toNat_setWidth_of_le (by decide)]

/-- Settles O46: `perform_response` gives the status word, `statusWord_toNat` its bits. -/
theorem statusWordFormat : Obligations.StatusWordFormat := by
  refine ⟨decodeCommand_opc, fun c s t h => ?_⟩
  obtain ⟨u, rc, ds, hu, hrsp, -⟩ := perform_response c s
  cases hu.symm.trans h
  have hcode : (codeOf rc).toNat ≤ 3 := by cases rc <;> decide
  have hword := statusWord_toNat c.opc rc
  exact ⟨_, ds, hrsp, by omega, by omega⟩

/-- Settles O48: a refusal has no data words, an OK response those of its command (`ResponseData`). -/
theorem responseLengths : Obligations.ResponseLengths := by
  intro c s
  obtain ⟨t, rc, ds, ht, hrsp, hdata⟩ := perform_response c s
  refine ⟨t, _, ds, ht, hrsp, ?_⟩
  rw [statusWord_code, Ne, codeOf_eq_zero]
  cases hdata with
  | refused _ hrc => exact ⟨fun _ => rfl, fun hok => absurd hok hrc⟩
  | reset => exact ⟨fun hrc => absurd rfl hrc, fun _ => .inl ⟨rfl, rfl⟩⟩
  | write bs => exact ⟨fun hrc => absurd rfl hrc, fun _ => .inr (.inl ⟨bs, rfl, rfl⟩)⟩
  | finalize => exact ⟨fun hrc => absurd rfl hrc, fun _ => .inr (.inr (.inl ⟨rfl, rfl⟩))⟩
  | sum bs => exact ⟨fun hrc => absurd rfl hrc, fun _ => .inr (.inr (.inr (.inl ⟨bs, rfl, rfl⟩)))⟩
  | status => exact ⟨fun hrc => absurd rfl hrc, fun _ => .inr (.inr (.inr (.inr ⟨rfl, rfl⟩)))⟩

/-! ### The expansions of the pseudo-instructions as byte sequences (R57) -/

/-- A payload cut as R57 cuts it: parts of 65535 bytes and a last one, empty only if it stands alone. -/
structure PartsOf (full : List (List Byte)) (last : List Byte) : Prop where
  fullLength : ∀ p ∈ full, p.length = 65535
  lastLength : last.length ≤ 65535
  lastAlone : last = [] → full = []

/-- Every payload can be cut so. -/
theorem exists_parts (bs : List Byte) : ∃ full last, full.flatten ++ last = bs ∧ PartsOf full last := by
  by_cases hshort : bs.length ≤ 65535
  · exact ⟨[], bs, rfl, fun _ h => absurd h List.not_mem_nil, hshort, fun _ => rfl⟩
  · obtain ⟨full, last, hcut, hparts⟩ := exists_parts (bs.drop 65535)
    refine ⟨bs.take 65535 :: full, last, ?_, ?_, hparts.lastLength, fun hlast => ?_⟩
    · rw [List.flatten_cons, List.append_assoc, hcut, List.take_append_drop]
    · exact List.forall_mem_cons.2 ⟨by rw [List.length_take]; omega, hparts.fullLength⟩
    · have hdrop := congrArg List.length hcut
      simp [hlast, hparts.lastAlone hlast] at hdrop
      omega
termination_by bs.length
decreasing_by rw [List.length_drop]; omega

/-- A payload that LEN can count is one WRITE. -/
theorem writeParts_of_short (n : Nat) {bs : List Byte} (h : bs.length ≤ 65535) : writeParts n bs = [.write bs] := by
  cases n with
  | zero => rfl
  | succ n => exact if_pos h

/-- A part of 65535 bytes with more behind it is a WRITE of its own. -/
theorem writeExpansion_append {p bs : List Byte} (hp : p.length = 65535) (hbs : bs ≠ []) :
    writeExpansion (p ++ bs) = .write p :: writeExpansion bs := by
  have hpos := List.length_pos_iff.2 hbs
  have hcount : (p ++ bs).length / Config.maxLen = bs.length / Config.maxLen + 1 := by
    rw [List.length_append, hp]
    exact Nat.add_div_left _ (by decide)
  have hlong : ¬(p ++ bs).length ≤ Config.maxLen := by
    rw [List.length_append, hp, Config.maxLen]
    omega
  rw [writeExpansion, hcount, writeParts, if_neg hlong, show Config.maxLen = p.length from hp.symm, List.take_left,
    List.drop_left, hp]
  rfl

/-- WRITE expands to the parts as WRITEs (R57). -/
theorem writeExpansion_parts {full : List (List Byte)} {last : List Byte} (h : PartsOf full last) :
    writeExpansion (full.flatten ++ last) = full.map .write ++ [.write last] := by
  obtain ⟨hfull, hlast, halone⟩ := h
  induction full with
  | nil => exact writeParts_of_short _ hlast
  | cons p full ih =>
    obtain ⟨hp, hfull⟩ := List.forall_mem_cons.1 hfull
    have hne : last ≠ [] := fun h => List.cons_ne_nil _ _ (halone h)
    rw [List.flatten_cons, List.append_assoc, writeExpansion_append hp (by simp [hne]),
      ih hfull fun h => absurd h hne]
    rfl

/-- The parts of 65535 bytes by themselves expand to themselves. -/
theorem writeExpansion_full {full : List (List Byte)} (hfull : ∀ p ∈ full, p.length = 65535) (hne : full ≠ []) :
    writeExpansion full.flatten = full.map .write := by
  obtain ⟨init, p, rfl⟩ := (List.eq_nil_or_concat full).resolve_left hne
  have hp : p.length = 65535 := hfull p (by simp)
  have hparts : PartsOf init p :=
    ⟨fun q hq => hfull q (by simp [hq]), hp.le, fun h => by simp [h] at hp⟩
  simpa using writeExpansion_parts hparts

theorem flatten_length_of_full {full : List (List Byte)} (hfull : ∀ p ∈ full, p.length = 65535) :
    full.flatten.length = full.length * 65535 := by
  rw [List.length_flatten, List.map_congr_left hfull, List.map_const', List.sum_replicate, smul_eq_mul]

/-- SUM expands to the same parts, the last one as a SUM (R57). -/
theorem sumExpansion_parts {full : List (List Byte)} {last : List Byte} (h : PartsOf full last) :
    sumExpansion (full.flatten ++ last) = full.map .write ++ [.sum last] := by
  obtain ⟨hfull, hlast, halone⟩ := h
  by_cases hne : full = []
  · subst hne
    exact if_pos hlast
  · have hpos : 0 < last.length := List.length_pos_iff.2 fun h => hne (halone h)
    have hfullpos : 0 < full.length := List.length_pos_iff.2 hne
    have htotal : (full.flatten ++ last).length = full.length * 65535 + last.length := by
      rw [List.length_append, flatten_length_of_full hfull]
    have hlong : ¬(full.flatten ++ last).length ≤ Config.maxLen := by
      rw [htotal, Config.maxLen]
      omega
    have hlastPart : lastPart (full.flatten ++ last).length = last.length := by
      rw [lastPart, htotal, Config.maxLen]
      split <;> omega
    rw [sumExpansion, if_neg hlong, hlastPart, List.length_append, Nat.add_sub_cancel, List.take_left, List.drop_left,
      writeExpansion_full hfull hne]

/-! ### What the expansions do (R57, R86) -/

/-- Absorbing in two pieces is absorbing at once: a byte sequence has one cut into blocks and a short rest (R86). -/
theorem absorbed_append (v : HashState) (buf p q : List Byte) :
    absorbed (absorbed v buf p).1 (absorbed v buf p).2 q = absorbed v buf (p ++ q) := by
  obtain ⟨blocks₁, hwhole₁, hsplit₁, -, hv₁⟩ := absorbed_blocks v buf p
  obtain ⟨blocks₂, hwhole₂, hsplit₂, hshort₂, hv₂⟩ := absorbed_blocks (absorbed v buf p).1 (absorbed v buf p).2 q
  obtain ⟨blocks, hwhole, hsplit, hshort, hv⟩ := absorbed_blocks v buf (p ++ q)
  rw [← List.append_assoc, hsplit₁, List.append_assoc, hsplit₂, ← List.append_assoc, ← List.flatten_append] at hsplit
  obtain ⟨hblocks, hrest⟩ := wholeBlocks_unique (wholeBlocks_append.2 ⟨hwhole₁, hwhole₂⟩) hwhole hshort₂ hshort hsplit
  refine Prod.ext ?_ hrest
  rw [hv, ← hblocks, List.foldl_append, hv₂, hv₁]

theorem countBits_append (len : Length) (m n : Nat) : countBits (countBits len m) n = countBits len (m + n) := by
  rw [countBits, countBits, countBits, Nat.mul_add, BitVec.ofNat_add, BitVec.add_assoc]

theorem absorb_append (p q : List Byte) (s : State) : absorb q (absorb p s) = absorb (p ++ q) s := by
  simp only [absorb, absorbed_append, countBits_append, List.length_append]

/-- V, L, BUF and FSM after a WRITE: in ACCEPTING its payload is absorbed, elsewhere nothing changes (R81). -/
def written (bs : List Byte) (s : State) : State :=
  if s.fsm = .accepting then absorb bs s else s

theorem written_of_accepting {s : State} (hf : s.fsm = .accepting) (bs : List Byte) : written bs s = absorb bs s :=
  if_pos hf

theorem written_of_not_accepting {s : State} (hf : s.fsm ≠ .accepting) (bs : List Byte) : written bs s = s :=
  if_neg hf

theorem written_append (p q : List Byte) (s : State) : written q (written p s) = written (p ++ q) s := by
  by_cases hf : s.fsm = .accepting
  · rw [written_of_accepting hf, written_of_accepting (s := absorb p s) hf, written_of_accepting hf, absorb_append]
  · rw [written_of_not_accepting hf, written_of_not_accepting hf, written_of_not_accepting hf]

theorem written_nil {s : State} (h : s.buf.length < 64) : written [] s = s := by
  by_cases hf : s.fsm = .accepting
  · rw [written_of_accepting hf, absorb_nil h]
  · exact written_of_not_accepting hf []

theorem written_rsp (bs : List Byte) (s : State) (rsp : List Word) :
    written bs { s with rsp := rsp } = { written bs s with rsp := rsp } := by
  by_cases hf : s.fsm = .accepting
  · rw [written_of_accepting hf, written_of_accepting (s := { s with rsp := rsp }) hf]
    rfl
  · rw [written_of_not_accepting hf, written_of_not_accepting (s := { s with rsp := rsp }) hf]

theorem written_short {s : State} (h : s.buf.length < 64) (bs : List Byte) : (written bs s).buf.length < 64 := by
  by_cases hf : s.fsm = .accepting
  · rw [written_of_accepting hf, absorb_buf, absorbed_length]
    omega
  · rwa [written_of_not_accepting hf]

/-- A WRITE does what `written` says and answers (R81). -/
theorem exec_write_written (bs : List Byte) (s : State) :
    ∃ rsp, exec (.write bs) s = .next { written bs s with rsp := rsp } := by
  by_cases hf : s.fsm = .accepting
  · rw [written_of_accepting hf]
    exact ⟨_, execWrite_of_accepting hf bs⟩
  · rw [written_of_not_accepting hf]
    obtain ⟨-, h⟩ | ⟨-, -, h⟩ | ⟨-, -, h⟩ | ⟨hacc, -⟩ := execWrite_cases bs s
    · exact ⟨_, h⟩
    · exact ⟨_, h⟩
    · exact ⟨_, h⟩
    · exact absurd hacc hf

/-- WRITEs one after the other do what one WRITE of all their bytes does (R86). -/
theorem execAll_writes (parts : List (List Byte)) {s : State} (hshort : s.buf.length < 64) :
    ∃ rsp, execAll (parts.map .write) s = .next { written parts.flatten s with rsp := rsp } := by
  induction parts generalizing s with
  | nil => exact ⟨s.rsp, by rw [List.flatten_nil, written_nil hshort]; rfl⟩
  | cons p parts ih =>
    obtain ⟨rsp, hp⟩ := exec_write_written p s
    obtain ⟨rsp', hparts⟩ := ih (s := { written p s with rsp := rsp }) (written_short hshort p)
    rw [written_rsp parts.flatten (written p s) rsp, written_append] at hparts
    exact ⟨rsp', (execAll_cons_of_next _ hp).trans hparts⟩

theorem execAll_singleton (i : Instr) (s : State) : execAll [i] s = exec i s := by
  rw [execAll]
  cases exec i s <;> rfl

/-- Commands do not read the pending response (R87). -/
theorem exec_rsp (i : Instr) (s : State) (rsp : List Word) : exec i { s with rsp := rsp } = exec i s := by
  obtain ⟨t, t', ht, ht', hrsp, hsame⟩ :=
    perform_sameMessage (s := { s with rsp := rsp }) (s' := s) ⟨rfl, rfl, rfl, rfl⟩ (.command i)
  obtain ⟨hdec, hrst, hready, hcmd, hout⟩ := (perform_effect ht).frame
  obtain ⟨hdec', hrst', hready', hcmd', hout'⟩ := (perform_effect ht').frame
  have heq : t = t' := hsame.eq_of_ports hrsp
    ⟨hdec'.trans hdec.symm, hrst'.trans hrst.symm, hready'.trans hready.symm, hcmd'.trans hcmd.symm,
      hout'.trans hout.symm⟩
  exact ht.trans (heq ▸ ht'.symm)

/-- A SUM with payload after a WRITE is the SUM of both payloads (R83, R86). -/
theorem execSum_written (p : List Byte) {q : List Byte} (hq : q ≠ []) (s : State) :
    execSum q (written p s) = execSum (p ++ q) s := by
  cases hf : s.fsm with
  | accepting =>
    rw [written_of_accepting hf, execSum_of_accepting (s := absorb p s) hf, execSum_of_accepting hf, absorb_append]
  | finalized =>
    rw [written_of_not_accepting (by simp [hf]), execSum_of_finalized hf hq, execSum_of_finalized hf (by simp [hq])]
  | fault => simp [written, execSum, hf]

/-- The WRITE expansion leaves V, L, BUF and FSM as one WRITE without a limit on LEN does (R57). -/
theorem execAll_writeExpansion (bs : List Byte) {s : State} (hshort : s.buf.length < 64) :
    ∃ rsp, execAll (writeExpansion bs) s = .next { written bs s with rsp := rsp } := by
  obtain ⟨full, last, rfl, hparts⟩ := exists_parts bs
  have hall := execAll_writes (full ++ [last]) hshort
  rw [List.map_append, List.flatten_append] at hall
  simpa [writeExpansion_parts hparts] using hall

/-- The SUM expansion is the SUM without a limit on LEN, response and ports included (R57). -/
theorem execAll_sumExpansion (bs : List Byte) {s : State} (hshort : s.buf.length < 64) :
    execAll (sumExpansion bs) s = exec (.sum bs) s := by
  obtain ⟨full, last, rfl, hparts⟩ := exists_parts bs
  obtain ⟨rsp, hwrites⟩ := execAll_writes full hshort
  rw [sumExpansion_parts hparts, execAll_append _ hwrites, execAll_singleton, exec_rsp, exec_sum, exec_sum]
  by_cases hlast : last = []
  · simp [hparts.lastAlone hlast, written_nil hshort]
  · exact execSum_written _ hlast s

/-! ### The digest that HASH answers (R85) -/

theorem compressAll_cons_block (v : HashState) {b : List Byte} (hb : b.length = 64) (p : List Byte) :
    compressAll v (b ++ p) = compressAll (cf v b) p := by
  have hcount : (b ++ p).length / Config.blockBytes = p.length / Config.blockBytes + 1 := by
    rw [List.length_append, hb]
    exact Nat.add_div_left _ (by decide)
  rw [compressAll, hcount, compressBlocks, show Config.blockBytes = b.length from hb.symm, List.take_left, List.drop_left,
    hb]
  rfl

/-- Compressing whole blocks and what follows is compressing what follows from where the blocks lead (R79). -/
theorem compressAll_append_blocks (v : HashState) {blocks : List (List Byte)} (h : WholeBlocks blocks) (p : List Byte) :
    compressAll v (blocks.flatten ++ p) = compressAll (blocks.foldl cf v) p := by
  induction blocks generalizing v with
  | nil => rfl
  | cons b blocks ih =>
    obtain ⟨hb, hblocks⟩ := wholeBlocks_cons.1 h
    rw [List.flatten_cons, List.append_assoc, compressAll_cons_block v hb, ih _ hblocks, List.foldl_cons]

/-- SM3 of a message is what absorbing it from IV and compressing the padding of the rest leaves (R85 in the reading of log
entry 18). -/
theorem sm3_eq_absorbed (m : List Byte) :
    sm3 m = serialize (compressAll (absorbed Config.iv [] m).1
      (pad (absorbed Config.iv [] m).2 (BitVec.ofNat 64 (8 * m.length)))) := by
  obtain ⟨blocks, hwhole, hsplit, hshort, hv⟩ := absorbed_blocks Config.iv [] m
  have hlength := congrArg List.length hsplit
  rw [List.nil_append] at hsplit hlength
  rw [List.length_append, flatten_length hwhole] at hlength
  have hcount : Config.blockBytes * (m.length / Config.blockBytes) = blocks.flatten.length := by
    rw [flatten_length hwhole, Config.blockBytes]
    omega
  have htake : m.take blocks.flatten.length = blocks.flatten := by
    conv_lhs => rw [hsplit, List.take_left]
  have hdrop : m.drop blocks.flatten.length = (absorbed Config.iv [] m).2 := by
    conv_lhs => rw [hsplit, List.drop_left]
  rw [sm3, hcount, htake, hdrop, compressAll_append_blocks _ hwhole, hv]

/-- On an empty message the SUM expansion answers SM3 of its operand (R83, R85). -/
theorem execAll_sumExpansion_of_empty {s : State} (hv : s.v = Config.iv) (hlen : s.len = 0) (hbuf : s.buf = [])
    (hf : s.fsm = .accepting) (bs : List Byte) :
    ∃ t ds, execAll (sumExpansion bs) s = .next t ∧ t.rsp = 0x04000000 :: ds ∧ ds.flatMap be32bytes = sm3 bs := by
  refine ⟨finish opcSum (absorb bs s), stateWords (finish opcSum (absorb bs s)).v, ?_, finish_response .., ?_⟩
  · rw [execAll_sumExpansion bs (by simp [hbuf]), exec_sum, execSum_of_accepting hf]
  · rw [sm3_eq_absorbed, serialize, finish_v, absorb_v, absorb_buf, absorb_len, hv, hlen, hbuf, countBits, zero_add]

/-- HASH answers SM3 of its operand wherever RESET is not refused (R57, R85). -/
theorem execAll_hashExpansion (bs : List Byte) {s : State} (hf : s.fsm ≠ .fault) :
    ∃ t ds, execAll (hashExpansion bs) s = .next t ∧ t.rsp = 0x04000000 :: ds ∧ ds.flatMap be32bytes = sm3 bs := by
  obtain ⟨hfault, -⟩ | ⟨-, hreset⟩ := execReset_cases s
  · exact absurd hfault hf
  · rw [hashExpansion, execAll_cons_of_next (i := .reset) _ hreset]
    exact execAll_sumExpansion_of_empty rfl rfl rfl rfl bs

/-- Settles O58: the parts of R57 and, for each expansion, what it does. -/
theorem pseudoInstructionsSound : Obligations.PseudoInstructionsSound := by
  refine ⟨fun bs => ?_, fun bs s hshort => ?_, fun bs s => execAll_sumExpansion bs,
    fun bs s hf _ => execAll_hashExpansion bs hf, by decide, fun s hshort => ?_⟩
  · obtain ⟨full, last, rfl, hparts⟩ := exists_parts bs
    exact ⟨full, last, rfl, hparts.fullLength, hparts.lastLength, fun hlast => by simp [hlast, hparts.lastAlone hlast],
      writeExpansion_parts hparts, sumExpansion_parts hparts, rfl⟩
  · obtain ⟨rsp, hparts⟩ := execAll_writeExpansion bs hshort
    obtain ⟨rsp', hwhole⟩ := exec_write_written bs s
    exact ⟨_, _, hparts, hwhole, rfl, rfl, rfl, rfl⟩
  · obtain ⟨rsp, hnop⟩ := execAll_writes [[]] hshort
    exact ⟨_, hnop, by simp [written_nil hshort]⟩

/-- Settles O59: each line is parsed and assembled by computation. -/
theorem sampleLinesAssemble : Obligations.SampleLinesAssemble := by
  unfold Obligations.SampleLinesAssemble
  decide

end Sys2Proof.Machine
end

section
/-! PROOF. The family of spec/40_compression.md: rotation, the permutations, the constants and the Boolean functions bit by
bit, the expanded words of a block as the one sequence that meets R65 and R66, and CF over any such sequence. -/

namespace Sys2Proof.Machine

/-! ### Rotation and the permutations -/

theorem rotl_of_mod_eq_zero (x : Word) {n : Nat} (h : n % 32 = 0) : rotl x n = x := by
  rw [rotl, if_pos h]

/-- R58's formula for a rotation that moves bits. -/
theorem rotl_toNat_of_mod_pos (x : Word) {n : Nat} (h : 0 < n % 32) :
    (rotl x n).toNat = (x.toNat * 2 ^ (n % 32)) % 2 ^ 32 ||| x.toNat / 2 ^ (32 - n % 32) := by
  rw [rotl, if_neg h.ne', BitVec.toNat_or, BitVec.toNat_shiftLeft, BitVec.toNat_ushiftRight, Nat.shiftLeft_eq,
    Nat.shiftRight_eq_div_pow]

/-- Only the rotation amount modulo 32 counts (R58). -/
theorem rotl_add_32 (x : Word) (n : Nat) : rotl x (n + 32) = rotl x n := by
  rw [rotl, rotl, Nat.add_mod_right]

/-- Which bit of `x` a rotation by at most 32 brings to place `i` (R58). -/
theorem rotl_getLsbD_source (x : Word) {n i : Nat} (hn : n ≤ 32) (hi : i < 32) :
    (rotl x n).getLsbD i = x.getLsbD ((i + (32 - n)) % 32) := by
  have hplace : ((i + (32 - n)) % 32 + n) % 32 = i := by omega
  have hmoved := rotl_getLsbD x n ((i + (32 - n)) % 32) (Nat.mod_lt _ (by decide))
  rwa [hplace] at hmoved

/-- A word under exclusive or with two of its rotations, bit by bit: the shape of P0 and P1 (R60, R61). -/
theorem xor_rotl_rotl_getLsbD (x : Word) {m n i : Nat} (hm : m ≤ 32) (hn : n ≤ 32) (hi : i < 32) :
    (x ^^^ rotl x m ^^^ rotl x n).getLsbD i =
      (x.getLsbD i ^^ x.getLsbD ((i + (32 - m)) % 32) ^^ x.getLsbD ((i + (32 - n)) % 32)) := by
  rw [BitVec.getLsbD_xor, BitVec.getLsbD_xor, rotl_getLsbD_source x hm hi, rotl_getLsbD_source x hn hi]

/-- Settles O27, by `rotl_getLsbD` for the bits and the two branches of the rotation for the formula. -/
theorem rotationBits : Obligations.RotationBits := fun x n =>
  ⟨rotl_of_mod_eq_zero x, rotl_toNat_of_mod_pos x, rotl_getLsbD x n⟩

/-- Settles O28, by `xor_rotl_rotl_getLsbD` for rotations by 9 and 17 and by 15 and 23. -/
theorem permutationBits : Obligations.PermutationBits := fun x _ hi =>
  ⟨xor_rotl_rotl_getLsbD x (m := 9) (n := 17) (by decide) (by decide) hi,
    xor_rotl_rotl_getLsbD x (m := 15) (n := 23) (by decide) (by decide) hi⟩

/-! ### The round constants -/

theorem roundConstant_early {j : Nat} (h : j ≤ 15) : roundConstant j = 0x79cc4519 := if_pos h

theorem roundConstant_late {j : Nat} (h : 16 ≤ j) : roundConstant j = 0x7a879d8a := if_neg (by omega)

/-- Settles O29: each constant is its half's T rotated, and a rotation by 32 more changes nothing. -/
theorem rotatedRoundConstants : Obligations.RotatedRoundConstants := by
  refine ⟨fun j hj => ?_, fun j hj _ => ?_, fun j hj _ => ?_⟩
  · rw [rotatedConstant, roundConstant_early hj, rotl_eq_rotateLeft]
  · rw [rotatedConstant, roundConstant_late hj, rotl_eq_rotateLeft, BitVec.rotateLeft_mod_eq_rotateLeft]
  · rw [rotatedConstant, rotatedConstant, roundConstant_late hj, roundConstant_late (by omega), rotl_add_32]

/-! ### The Boolean functions -/

theorem ff_early {j : Nat} (h : j ≤ 15) (x y z : Word) : ff j x y z = x ^^^ y ^^^ z := if_pos h

theorem ff_late {j : Nat} (h : 16 ≤ j) (x y z : Word) : ff j x y z = (x &&& y) ||| (x &&& z) ||| (y &&& z) :=
  if_neg (by omega)

theorem gg_early {j : Nat} (h : j ≤ 15) (x y z : Word) : gg j x y z = x ^^^ y ^^^ z := if_pos h

theorem gg_late {j : Nat} (h : 16 ≤ j) (x y z : Word) : gg j x y z = (x &&& y) ||| (~~~x &&& z) :=
  if_neg (by omega)

/-- The three products of FF are the majority of three bits (R63). -/
theorem majority_eq_count : ∀ a b c : Bool, (a && b || a && c || b && c) = decide (2 ≤ [a, b, c].count true) := by
  decide

/-- The two products of GG choose between two bits (R64). -/
theorem choose_eq_ite : ∀ a b c : Bool, (a && b || !a && c) = if a then b else c := by
  decide

/-- Settles O30: in each half the bits of FF and GG are the half's formula on the operands' bits. -/
theorem booleanFunctionBits : Obligations.BooleanFunctionBits := by
  intro j x y z i hi
  refine ⟨fun hj => ⟨?_, ?_⟩, fun hj => ⟨?_, ?_⟩⟩
  · rw [ff_early hj, BitVec.getLsbD_xor, BitVec.getLsbD_xor]
  · rw [ff_early hj, gg_early hj]
  · rw [ff_late hj, ← majority_eq_count]
    simp only [BitVec.getLsbD_or, BitVec.getLsbD_and]
  · rw [gg_late hj, ← choose_eq_ite]
    simp only [BitVec.getLsbD_or, BitVec.getLsbD_and, BitVec.getLsbD_not, hi, decide_true, Bool.true_and]

/-! ### The expanded words of a block -/

/-- The sequence `W` is the block's big-endian words followed by what the recurrence gives (R65, R66). -/
structure ExpandedWords (block : List Byte) (W : Nat → Word) : Prop where
  loaded : ∀ i, i < 16 → W i =
    be32 (block.getD (4 * i) 0) (block.getD (4 * i + 1) 0) (block.getD (4 * i + 2) 0) (block.getD (4 * i + 3) 0)
  recurrence : ∀ j, 16 ≤ j → j ≤ 67 →
    W j = p1 (W (j - 16) ^^^ W (j - 9) ^^^ rotl (W (j - 3)) 15) ^^^ rotl (W (j - 13)) 7 ^^^ W (j - 6)

/-- Each word reads only words of lower index, so R65 and R66 determine all 68. -/
theorem ExpandedWords.unique {block : List Byte} {W W' : Nat → Word} (h : ExpandedWords block W)
    (h' : ExpandedWords block W') (j : Nat) (hj : j ≤ 67) : W j = W' j := by
  induction j using Nat.strong_induction_on with
  | _ j ih =>
    by_cases hlt : j < 16
    · rw [h.loaded j hlt, h'.loaded j hlt]
    · rw [h.recurrence j (by omega) hj, h'.recurrence j (by omega) hj, ih (j - 16) (by omega) (by omega),
        ih (j - 9) (by omega) (by omega), ih (j - 3) (by omega) (by omega), ih (j - 13) (by omega) (by omega),
        ih (j - 6) (by omega) (by omega)]

theorem prefix_expandMore (n : Nat) (ws : List Word) : ws <+: expandMore n ws := by
  induction n generalizing ws with
  | zero => exact List.prefix_rfl
  | succ n ih => exact (List.prefix_append ws [nextExpanded ws]).trans (ih _)

/-- Each word that expanding adds is the next word after those in front of it (R66). -/
theorem expandMore_getD_added (n : Nat) (ws : List Word) {j : Nat} (hlo : ws.length ≤ j) (hhi : j < ws.length + n) :
    (expandMore n ws).getD j 0 = nextExpanded ((expandMore n ws).take j) := by
  induction n generalizing ws with
  | zero => omega
  | succ n ih =>
    obtain rfl | hlt := hlo.eq_or_lt
    · rw [← List.prefix_iff_eq_take.1 (prefix_expandMore (n + 1) ws), expandMore, expandMore_keeps _ _ _ (by simp)]
      simp
    · exact ih _ (by simpa using hlt) (by simp; omega)

/-- The next word, read back from the first `j` words of a list (R66). -/
theorem nextExpanded_take (ws : List Word) {j : Nat} (hlo : 16 ≤ j) (hhi : j ≤ ws.length) :
    nextExpanded (ws.take j) =
      p1 (wordW ws (j - 16) ^^^ wordW ws (j - 9) ^^^ rotl (wordW ws (j - 3)) 15) ^^^
        rotl (wordW ws (j - 13)) 7 ^^^ wordW ws (j - 6) := by
  have hback (back : Nat) (hpos : 0 < back) : (ws.take j).getD (j - back) 0 = wordW ws (j - back) := by
    rw [wordW, List.getD_eq_getElem?_getD, List.getElem?_take_of_lt (by omega), ← List.getD_eq_getElem?_getD]
  simp only [nextExpanded, List.length_take_of_le hhi]
  rw [hback 16 (by decide), hback 9 (by decide), hback 3 (by decide), hback 13 (by decide), hback 6 (by decide)]

section
variable {block : List Byte} (hblock : block.length = 64)
include hblock

theorem blockWords_length : (blockWords block).length = 16 := (blockWords_spec 16 block hblock).1

/-- A block has W_WORDS expanded words (R66). -/
theorem expand_length : (expand block).length = 68 := by
  rw [expand, expandMore_length, blockWords_length hblock, Config.wWords]

/-- The model's expansion meets R65 and R66. -/
theorem expandedWords_expand : ExpandedWords block (wordW (expand block)) where
  loaded i hi := by
    rw [wordW, expand, expandMore_keeps _ _ _ (by rwa [blockWords_length hblock])]
    exact (blockWords_spec 16 block hblock).2 i hi
  recurrence j hlo hhi := by
    rw [← nextExpanded_take _ hlo (by rw [expand_length hblock]; omega)]
    exact expandMore_getD_added _ _ (by rwa [blockWords_length hblock])
      (by rw [blockWords_length hblock, Config.wWords]; omega)

end

/-- Settles O31, by `expandedWords_expand`. -/
theorem messageExpansion : Obligations.MessageExpansion := by
  intro block hblock
  obtain ⟨hloaded, hrecurrence⟩ := expandedWords_expand hblock
  refine ⟨expand_length hblock, hloaded, fun j hlo hhi => ?_, fun j _ => rfl⟩
  rw [← rotl_eq_rotateLeft, ← rotl_eq_rotateLeft]
  exact hrecurrence j hlo hhi

/-! ### The rounds and CF -/

/-- Settles O32: with the library's rotation for the model's, the seven assignments build the round's record. -/
theorem roundAsSequence : Obligations.RoundAsSequence := by
  intro j w w' r
  simp only [compressRound, rotl_eq_rotateLeft]

/-- The 64 rounds of a block, from any sequence that meets R65 and R66. -/
theorem compressRounds_expand {block : List Byte} (hblock : block.length = 64) {W : Nat → Word}
    (hW : ExpandedWords block W) (v : HashState) :
    compressRounds (expand block) Config.rounds 0 v =
      (List.range 64).foldl (fun r j => compressRound j (W j) (W j ^^^ W (j + 4)) r) v := by
  have hword (j : Nat) (hj : j ≤ 67) : wordW (expand block) j = W j := (expandedWords_expand hblock).unique hW j hj
  rw [compressRounds_eq_foldl, Config.rounds, ← List.range_eq_range']
  refine List.foldl_ext _ _ v fun r j hj => ?_
  have hround := List.mem_range.1 hj
  rw [wordW', hword j (by omega), hword (j + 4) (by omega)]

/-- Settles O33, by `compressRounds_expand`. -/
theorem compressionFunction : Obligations.CompressionFunction := by
  intro v block W hblock hloaded hrecurrence r
  rw [cf, compressRounds_expand hblock ⟨hloaded, hrecurrence⟩]
  rfl

/-- Settles O34: one block is padded and compressed by computation in the kernel. -/
theorem compressionKnownAnswer : Obligations.CompressionKnownAnswer := by
  unfold Obligations.CompressionKnownAnswer
  decide +kernel

end Sys2Proof.Machine
end

section
/-! PROOF. The family of spec/41_streaming.md: the blocks that absorbing and padding compress and how many they are (R74 to
R77, R115), the five commands (R80 to R84), and the digest of a whole message (R85, R86). -/

namespace Sys2Proof.Machine

/-! ### Blocks and padding -/

/-- The whole blocks at the front of a sequence with a short rest are as many as its length holds. -/
theorem wholeBlocks_count {blocks : List (List Byte)} {buf bs rest : List Byte} (hblocks : WholeBlocks blocks)
    (hrest : rest.length < 64) (hsplit : buf ++ bs = blocks.flatten ++ rest) :
    blocks.length = (buf.length + bs.length) / 64 := by
  rw [← List.length_append, hsplit, List.length_append, flatten_length hblocks]
  omega

/-- Settles O35, by `absorbed_blocks`; the number of blocks follows from the cut. -/
theorem absorbCompressesBlocks : Obligations.AbsorbCompressesBlocks := by
  intro v buf bs
  obtain ⟨blocks, hblocks, hsplit, hshort, hv⟩ := absorbed_blocks v buf bs
  exact ⟨blocks, hblocks, hsplit, hshort, hv, wholeBlocks_count hblocks hshort hsplit⟩

/-- Eight big-endian bytes read as a number are the counter they were written from (R31). -/
theorem foldl_be64bytes (x : Length) : (be64bytes x).foldl (fun n b => 256 * n + b.toNat) 0 = x.toNat := by
  have hlt := x.isLt
  simp only [be64bytes, List.foldl_cons, List.foldl_nil, BitVec.extractLsb'_toNat, Nat.shiftRight_eq_div_pow]
  omega

/-- No fewer zero bytes bring the length to 56 modulo 64 (R76). -/
theorem padZeros_le {n k : Nat} (h : (n + 1 + k) % 64 = 56) : padZeros n ≤ k := by
  have hzeros := padZeros_spec n
  omega

/-- Settles O36: the number of zero bytes is the one the model computes, the least by `padZeros_le`. -/
theorem paddingBytes : Obligations.PaddingBytes := fun buf len =>
  ⟨padZeros buf.length, be64bytes len, rfl, (padZeros_spec _).2, fun _ => padZeros_le, be64bytes_length len,
    foldl_be64bytes len⟩

theorem pad_length_one_block {buf : List Byte} (h : buf.length ≤ 55) (len : Length) : (pad buf len).length = 64 := by
  have hzeros := padZeros_spec buf.length
  rw [pad_length_eq]
  omega

theorem pad_length_two_blocks {buf : List Byte} (hlo : 56 ≤ buf.length) (hhi : buf.length ≤ 63) (len : Length) :
    (pad buf len).length = 128 := by
  have hzeros := padZeros_spec buf.length
  rw [pad_length_eq]
  omega

/-- Settles O37: the length is `pad_length_eq` with the zero bytes of `padZeros`. -/
theorem paddingLength : Obligations.PaddingLength := by
  refine fun buf len => ⟨fun h => pad_length_one_block h len, fun hlo hhi => pad_length_two_blocks hlo hhi len,
    pad_length_mod buf len, padZeros buf.length, be64bytes len, rfl, be64bytes_length len, ?_, ?_, ?_, ?_⟩ <;>
  · intro h
    rw [h]
    rfl

/-- The padding of a short buffer is one block or two, compressed in order (R77, R79). -/
theorem compressAll_pad_at_most_two_blocks (v : HashState) {buf : List Byte} (hshort : buf.length < 64) (len : Length) :
    ∃ blocks, WholeBlocks blocks ∧ blocks.length ≤ 2 ∧ blocks.flatten = pad buf len ∧
      compressAll v (pad buf len) = blocks.foldl cf v := by
  obtain ⟨blocks, hblocks, hflat, hv⟩ := compressAll_pad_blocks v buf len
  have hlength := flatten_length hblocks
  have hzeros := padZeros_spec buf.length
  rw [hflat, pad_length_eq] at hlength
  exact ⟨blocks, hblocks, by omega, hflat, hv⟩

/-! ### Answers that change nothing else -/

/-- In FAULT every command but STATUS is refused (R94). -/
theorem exec_of_fault (i : Instr) (hi : i ≠ .status) {opc : Byte} (hopc : i.opc = opc) {s : State}
    (hf : s.fsm = .fault) : exec i s = .next (refuse opc .fault s) := by
  subst hopc
  cases i with
  | status => exact absurd rfl hi
  | reset | write | finalize | sum => simp [execReset, execWrite, execFinalize, execSum, hf, Instr.opc]

/-- Outside FAULT a malformed header is answered ILLEGAL (R91). -/
theorem perform_malformed_of_not_fault {s : State} (hf : s.fsm ≠ .fault) (opc : Byte) :
    perform (.malformed opc) s = .next { s with rsp := [opc ++ (0x000001 : BitVec 24)] } := by
  obtain ⟨hfault, -⟩ | ⟨-, hnext⟩ := execMalformed_cases opc s
  · exact absurd hfault hf
  · rw [perform_malformed, hnext, refuse_eq]
    rfl

/-- In FAULT a malformed header is answered FAULT (R95). -/
theorem perform_malformed_of_fault {s : State} (hf : s.fsm = .fault) (opc : Byte) :
    perform (.malformed opc) s = .next { s with rsp := [opc ++ (0x000003 : BitVec 24)] } := by
  obtain ⟨-, hnext⟩ | ⟨hnot, -⟩ := execMalformed_cases opc s
  · rw [perform_malformed, hnext, refuse_eq]
    rfl
  · exact absurd hf hnot

theorem execWrite_nil_of_finalized {s : State} (hf : s.fsm = .finalized) :
    execWrite [] s = .next (respond opcWrite .ok [0] s) := by
  simp [execWrite, hf]

theorem execWrite_of_finalized {s : State} (hf : s.fsm = .finalized) {bs : List Byte} (hbs : bs ≠ []) :
    execWrite bs s = .next (refuse opcWrite .finalized s) := by
  simp [execWrite, hf, hbs]

/-- The state with the empty message in place of its own (R27). -/
def emptied (s : State) : State := { s with v := Config.iv, len := 0, buf := [], fsm := .accepting }

theorem execReset_of_not_fault {s : State} (hf : s.fsm ≠ .fault) :
    execReset s = .next (respond opcReset .ok [] (emptied s)) := by
  obtain ⟨hfault, -⟩ | ⟨-, hnext⟩ := execReset_cases s
  · exact absurd hfault hf
  · exact hnext

/-! ### The words of a command with payload (R45, R46) -/

/-- A header with RSVD 0 is its OPC's row of the map plus LEN (R53). -/
theorem header_eq_add (opc : Byte) {n : Nat} (hn : n ≤ 65535) :
    header opc 0 (BitVec.ofNat 16 n) = header opc 0 0 + BitVec.ofNat 32 n := by
  have hopc := opc.isLt
  apply BitVec.eq_of_toNat_eq
  simp only [BitVec.toNat_add, header_toNat, BitVec.ofNat_eq_ofNat, BitVec.toNat_ofNat]
  omega

/-- The first word of a well-formed command, and the number of its words (R45, R46). -/
theorem encode_header_and_length (i : Instr) {row : Word} (hrow : header i.opc 0 0 = row)
    (h : i.payload.length ≤ 65535) : (encode i).head? = some (row + BitVec.ofNat 32 i.payload.length) ∧
      (encode i).length = 1 + (i.payload.length + 3) / 4 := by
  rw [encode, List.head?_cons, header_eq_add i.opc h, hrow, List.length_cons, packWords_length]
  exact ⟨rfl, Nat.add_comm _ _⟩

/-! ### The commands -/

/-- Settles O39, by whether the block is in FAULT. -/
theorem resetCommand : Obligations.ResetCommand := by
  refine fun s => ⟨fun hf => ?_, exec_of_fault .reset nofun rfl, fun hf => perform_malformed_of_not_fault hf 0x01,
    by decide⟩
  rw [exec_reset, execReset_of_not_fault hf]
  rfl

/-- L after a payload, with the sum taken over the integers first (R73). -/
theorem countBits_eq_ofNat (len : Length) (n : Nat) : countBits len n = BitVec.ofNat 64 (len.toNat + 8 * n) := by
  apply BitVec.eq_of_toNat_eq
  rw [countBits_toNat, BitVec.toNat_ofNat]

/-- Settles O40: in ACCEPTING the payload is absorbed (`absorbed_blocks`), elsewhere the command is only answered. -/
theorem writeCommand : Obligations.WriteCommand := by
  refine fun bs s => ⟨fun hf => ?_, fun hf hbs => ?_, fun hf hbs => execWrite_of_finalized hf hbs,
    exec_of_fault (.write bs) nofun (opc := opcWrite) rfl, fun hf => perform_malformed_of_not_fault hf 0x02,
    encode_header_and_length (.write bs) (show header opcWrite 0 0 = _ from rfl)⟩
  · obtain ⟨blocks, hblocks, hsplit, hshort, hv⟩ := absorbed_blocks s.v s.buf bs
    refine ⟨blocks, _, hblocks, hsplit, hshort, ?_⟩
    rw [exec_write, execWrite_of_accepting hf, ← hv, ← countBits_eq_ofNat]
    rfl
  · subst hbs
    exact execWrite_nil_of_finalized hf

/-- Settles O41: in ACCEPTING the blocks of the padding are compressed (`compressAll_pad_blocks`). -/
theorem finalizeCommand : Obligations.FinalizeCommand := by
  refine fun s => ⟨fun hf => ?_, fun hf => execFinalize_of_finalized hf, exec_of_fault .finalize nofun rfl,
    fun hf => perform_malformed_of_not_fault hf 0x03, by decide⟩
  obtain ⟨blocks, hblocks, hpad, hv⟩ := compressAll_pad_blocks s.v s.buf s.len
  refine ⟨blocks, hblocks, hpad, ?_⟩
  rw [exec_finalize, execFinalize_of_accepting hf, finish_eq, hv]
  rfl

/-- The blocks of a SUM in ACCEPTING: those that BUF and the payload complete, then those of the rest's padding (R83). -/
theorem finish_absorb_blocks (v : HashState) (buf bs : List Byte) (len : Length) :
    ∃ blocks tail padding, WholeBlocks blocks ∧ WholeBlocks padding ∧ buf ++ bs = blocks.flatten ++ tail ∧
      tail.length < 64 ∧ padding.flatten = pad tail len ∧ padding.length ≤ 2 ∧
      compressAll (absorbed v buf bs).1 (pad (absorbed v buf bs).2 len) = (blocks ++ padding).foldl cf v := by
  obtain ⟨blocks, hblocks, hsplit, hshort, hv⟩ := absorbed_blocks v buf bs
  obtain ⟨padding, hpadding, htwo, hpad, hfinal⟩ := compressAll_pad_at_most_two_blocks (absorbed v buf bs).1 hshort len
  exact ⟨blocks, _, padding, hblocks, hpadding, hsplit, hshort, hpad, htwo, by rw [hfinal, hv, List.foldl_append]⟩

/-- SUM leaves the message state of WRITE and then FINALIZE, and when it answers OK the same digest words (R83). -/
theorem sum_as_write_finalize (bs : List Byte) (s : State) :
    ∃ t u w, exec (.sum bs) s = .next t ∧ exec (.write bs) s = .next u ∧ exec .finalize u = .next w ∧ SameMessage t w ∧
      (t.rsp.head? = some 0x04000000 → w.rsp.head? = some 0x03000000 ∧ t.rsp.tail = w.rsp.tail) := by
  obtain ⟨hf, hsum⟩ | ⟨hf, rfl, hsum⟩ | ⟨hf, hbs, hsum⟩ | ⟨hf, hsum⟩ := execSum_cases bs s
  · exact ⟨_, _, _, hsum, exec_of_fault (.write bs) nofun rfl hf,
      exec_of_fault .finalize (s := refuse _ _ s) nofun rfl hf, ⟨rfl, rfl, rfl, rfl⟩, fun hok => absurd hok (by simp)⟩
  · exact ⟨_, _, _, hsum, execWrite_nil_of_finalized hf, execFinalize_of_finalized (s := respond _ _ _ s) hf,
      ⟨rfl, rfl, rfl, rfl⟩, by simp⟩
  · exact ⟨_, _, _, hsum, execWrite_of_finalized hf hbs, execFinalize_of_finalized (s := refuse _ _ s) hf,
      ⟨rfl, rfl, rfl, rfl⟩, fun hok => absurd hok (by simp)⟩
  · exact ⟨_, _, _, hsum, execWrite_of_accepting hf bs,
      execFinalize_of_accepting (s := respond _ _ _ (absorb bs s)) hf, ⟨by simp, by simp, by simp, by simp⟩, by simp⟩

/-- Settles O42, by `finish_absorb_blocks` in ACCEPTING and `sum_as_write_finalize` for the equivalence. -/
theorem sumCommand : Obligations.SumCommand := by
  refine fun bs s => ⟨fun hf => ?_, fun hf hbs => ?_, fun hf hbs => execSum_of_finalized hf hbs,
    exec_of_fault (.sum bs) nofun (opc := opcSum) rfl, fun hf => perform_malformed_of_not_fault hf 0x04,
    encode_header_and_length (.sum bs) (show header opcSum 0 0 = _ from rfl), ?_⟩
  · obtain ⟨blocks, tail, padding, hblocks, hpadding, hsplit, hshort, hpad, -, hv⟩ :=
      finish_absorb_blocks s.v s.buf bs (countBits s.len bs.length)
    refine ⟨blocks, tail, padding, hblocks, hpadding, hsplit, hshort, ?_, ?_⟩
    · rw [hpad, countBits_eq_ofNat]
    · rw [exec_sum, execSum_of_accepting hf, finish_eq, absorb_v, absorb_buf, absorb_len, hv, ← countBits_eq_ofNat]
      rfl
  · subst hbs
    exact execSum_nil_of_finalized hf
  · obtain ⟨t, u, w, ht, hu, hw, ⟨hv, hlen, hbuf, hfsm⟩, hdigest⟩ := sum_as_write_finalize bs s
    exact ⟨t, u, w, ht, hu, hw, hv, hlen, hbuf, hfsm, hdigest⟩

theorem toNat_append_eq_add {m n : Nat} (x : BitVec m) (y : BitVec n) :
    (x ++ y).toNat = x.toNat * 2 ^ n + y.toNat := by
  rw [BitVec.toNat_append, ← Nat.shiftLeft_add_eq_or_of_lt y.isLt, Nat.shiftLeft_eq]

/-- The STATUS register as a number, BUFCNT above the byte that holds STATE (R20). -/
theorem statusRegister_toNat (s : State) :
    (statusRegister s).toNat = s.buf.length % 64 * 2 ^ 8 + (fsmCode s.fsm).toNat := by
  simp only [statusRegister, bufCount, toNat_append_eq_add, BitVec.ofNat_eq_ofNat, BitVec.toNat_ofNat]
  omega

theorem statusRegister_of_short {s : State} (h : s.buf.length < 64) :
    statusRegister s = BitVec.ofNat 32 (s.buf.length * 2 ^ 8 + (fsmCode s.fsm).toNat) := by
  have hcode := (fsmCode s.fsm).isLt
  apply BitVec.eq_of_toNat_eq
  rw [statusRegister_toNat, BitVec.toNat_ofNat]
  omega

/-- The fields of the STATUS register (R20). -/
theorem statusRegister_fields (s : State) :
    (statusRegister s).extractLsb' 0 2 = fsmCode s.fsm ∧ (statusRegister s).extractLsb' 2 6 = 0 ∧
      (statusRegister s).extractLsb' 8 6 = bufCount s.buf ∧ (statusRegister s).extractLsb' 14 18 = 0 := by
  refine ⟨BitVec.extractLsb'_append_eq_right, ?_, ?_, ?_⟩
  · exact (BitVec.extractLsb'_append_eq_of_le (by decide)).trans BitVec.extractLsb'_append_eq_right
  · exact (BitVec.extractLsb'_append_eq_of_le (by decide)).trans
      ((BitVec.extractLsb'_append_eq_of_le (by decide)).trans BitVec.extractLsb'_append_eq_right)
  · exact (BitVec.extractLsb'_append_eq_of_le (by decide)).trans
      ((BitVec.extractLsb'_append_eq_of_le (by decide)).trans BitVec.extractLsb'_append_eq_left)

/-- Settles O43: the register as a number and by its fields. -/
theorem statusCommand : Obligations.StatusCommand := by
  refine ⟨fun s hshort => ⟨?_, statusRegister_of_short hshort⟩, statusRegister_fields, statusRegister_of_empty rfl rfl,
    fun s hf => perform_malformed_of_not_fault hf 0x05, fun s hf => perform_malformed_of_fault hf 0x05, by decide⟩
  rw [exec_status, execStatus, statusRegister_of_short hshort]
  rfl

/-! ### How often a command runs CF (R115) -/

/-- Outside ACCEPTING only RESET changes V. -/
theorem exec_keeps_v_of_not_accepting {i : Instr} {s t : State} (hi : i ≠ .reset) (hf : s.fsm ≠ .accepting)
    (h : exec i s = .next t) : t.v = s.v := by
  cases perform_effect (c := .command i) h with
  | answer => rfl
  | reset => exact absurd rfl hi
  | write _ _ hacc => exact absurd hacc hf
  | finalize _ hacc => exact absurd hacc hf
  | sum _ _ hacc => exact absurd hacc hf

/-- A short BUF and a payload that LEN can count complete at most 1024 blocks. -/
theorem wholeBlocks_count_le {blocks : List (List Byte)} {buf bs rest : List Byte} (hblocks : WholeBlocks blocks)
    (hrest : rest.length < 64) (hsplit : buf ++ bs = blocks.flatten ++ rest) (hbuf : buf.length < 64)
    (hbs : bs.length ≤ 65535) : blocks.length ≤ 1024 := by
  rw [wholeBlocks_count hblocks hrest hsplit]
  omega

/-- The blocks a WRITE runs CF on (R74). -/
theorem exec_write_blocks {bs : List Byte} {s t : State} (hbuf : s.buf.length < 64) (hbs : bs.length ≤ 65535)
    (h : exec (.write bs) s = .next t) :
    ∃ blocks, WholeBlocks blocks ∧ blocks.length ≤ 1024 ∧ t.v = blocks.foldl cf s.v ∧
      (s.fsm = .accepting → s.buf ++ bs = blocks.flatten ++ t.buf ∧ t.buf.length < 64) ∧
      (s.fsm ≠ .accepting → blocks = []) := by
  by_cases hf : s.fsm = .accepting
  · cases (execWrite_of_accepting hf bs).symm.trans h
    obtain ⟨blocks, hblocks, hsplit, hshort, hv⟩ := absorbed_blocks s.v s.buf bs
    exact ⟨blocks, hblocks, wholeBlocks_count_le hblocks hshort hsplit hbuf hbs, hv, fun _ => ⟨hsplit, hshort⟩, absurd hf⟩
  · exact ⟨[], wholeBlocks_nil, by decide, exec_keeps_v_of_not_accepting (by simp) hf h, fun hacc => absurd hacc hf,
      fun _ => rfl⟩

/-- The blocks a FINALIZE runs CF on (R77). -/
theorem exec_finalize_blocks {s t : State} (hbuf : s.buf.length < 64) (h : exec .finalize s = .next t) :
    ∃ blocks, WholeBlocks blocks ∧ blocks.length ≤ 2 ∧ t.v = blocks.foldl cf s.v ∧
      (s.fsm = .accepting → blocks.flatten = pad s.buf s.len) ∧ (s.fsm ≠ .accepting → blocks = []) := by
  by_cases hf : s.fsm = .accepting
  · cases (execFinalize_of_accepting hf).symm.trans h
    obtain ⟨blocks, hblocks, htwo, hpad, hv⟩ := compressAll_pad_at_most_two_blocks s.v hbuf s.len
    exact ⟨blocks, hblocks, htwo, (finish_v ..).trans hv, fun _ => hpad, absurd hf⟩
  · exact ⟨[], wholeBlocks_nil, by decide, exec_keeps_v_of_not_accepting (by simp) hf h, fun hacc => absurd hacc hf,
      fun _ => rfl⟩

/-- The blocks a SUM runs CF on, those of its payload and those of the padding (R83). -/
theorem exec_sum_blocks {bs : List Byte} {s t : State} (hbuf : s.buf.length < 64) (hbs : bs.length ≤ 65535)
    (h : exec (.sum bs) s = .next t) :
    ∃ blocks padding, WholeBlocks blocks ∧ WholeBlocks padding ∧ blocks.length ≤ 1024 ∧ padding.length ≤ 2 ∧
      t.v = (blocks ++ padding).foldl cf s.v ∧
      (s.fsm = .accepting → ∃ tail, s.buf ++ bs = blocks.flatten ++ tail ∧ tail.length < 64 ∧
        padding.flatten = pad tail t.len) ∧
      (s.fsm ≠ .accepting → blocks = [] ∧ padding = []) := by
  by_cases hf : s.fsm = .accepting
  · cases (execSum_of_accepting hf bs).symm.trans h
    obtain ⟨blocks, tail, padding, hblocks, hpadding, hsplit, hshort, hpad, htwo, hv⟩ :=
      finish_absorb_blocks s.v s.buf bs (countBits s.len bs.length)
    refine ⟨blocks, padding, hblocks, hpadding, wholeBlocks_count_le hblocks hshort hsplit hbuf hbs, htwo,
      (finish_v ..).trans hv, fun _ => ⟨tail, hsplit, hshort, ?_⟩, absurd hf⟩
    rw [hpad, finish_len, absorb_len]
  · exact ⟨[], [], wholeBlocks_nil, wholeBlocks_nil, by decide, by decide, exec_keeps_v_of_not_accepting (by simp) hf h,
      fun hacc => absurd hacc hf, fun _ => ⟨rfl, rfl⟩⟩

/-- RESET loads IV, but for FAULT, where it is refused (R80). -/
theorem exec_reset_v {s t : State} (h : exec .reset s = .next t) : t.v = if s.fsm = .fault then s.v else Config.iv := by
  obtain ⟨hf, hnext⟩ | ⟨hf, hnext⟩ := execReset_cases s
  · cases hnext.symm.trans h
    rw [if_pos hf, refuse_v]
  · cases hnext.symm.trans h
    rw [if_neg hf, respond_v]

/-- Settles O53: the blocks of each command, by `exec_write_blocks`, `exec_finalize_blocks` and `exec_sum_blocks`; the rest
run CF nowhere. -/
theorem workBounds : Obligations.WorkBounds := by
  refine ⟨fun bs s t => exec_write_blocks, fun s t => exec_finalize_blocks, fun bs s t => exec_sum_blocks,
    fun s t => exec_reset_v, fun s t h => ?_, fun c s t hc h => ((perform_effect h).keeps_of_not_command hc).1⟩
  cases perform_effect (c := .command .status) h
  rfl

/-! ### Whole messages -/

/-- Settles O54: either sequence does what one WRITE of its bytes does (`execAll_writes`). -/
theorem chunkingInvariance : Obligations.ChunkingInvariance := by
  intro s css css' _ hshort hsame
  obtain ⟨rsp, h⟩ := execAll_writes css hshort
  obtain ⟨rsp', h'⟩ := execAll_writes css' hshort
  rw [← hsame] at h'
  exact ⟨_, _, h, h', rfl, rfl, rfl, rfl⟩

/-- The number of zero bytes depends on the number of buffered bytes modulo 64 alone (R76). -/
theorem padZeros_block_add (m n : Nat) : padZeros (64 * m + n) = padZeros n := by
  have hzeros := padZeros_spec n
  have hzeros' := padZeros_spec (64 * m + n)
  omega

/-- Padding behind whole blocks is padding the rest: the tail stands once (log entry 18). -/
theorem pad_append_blocks {blocks : List (List Byte)} (h : WholeBlocks blocks) (tail : List Byte) (len : Length) :
    pad (blocks.flatten ++ tail) len = blocks.flatten ++ pad tail len := by
  simp only [pad, List.length_append, flatten_length h, padZeros_block_add, List.append_assoc]

/-- Absorbing bytes and compressing the padding of what is left is compressing the padded bytes from the start. -/
theorem compressAll_pad_absorbed (v : HashState) (buf bs : List Byte) (len : Length) :
    compressAll (absorbed v buf bs).1 (pad (absorbed v buf bs).2 len) = compressAll v (pad (buf ++ bs) len) := by
  obtain ⟨blocks, hblocks, hsplit, -, hv⟩ := absorbed_blocks v buf bs
  rw [hsplit, pad_append_blocks hblocks, compressAll_append_blocks v hblocks, hv]

/-- V at the end of a message: CF folded from IV over the padded message (R85 in the reading of log entry 18). -/
def messageHash (m : List Byte) : HashState :=
  compressAll Config.iv (pad m (BitVec.ofNat 64 (8 * m.length)))

theorem serialize_messageHash (m : List Byte) : serialize (messageHash m) = sm3 m := by
  rw [sm3_eq_absorbed, compressAll_pad_absorbed]
  rfl

/-- WRITEs and FINALIZE do what one WRITE of all the bytes and FINALIZE do (R86). -/
theorem execAll_writes_finalize (css : List (List Byte)) {s : State} (hf : s.fsm = .accepting)
    (hshort : s.buf.length < 64) :
    execAll (css.map .write ++ [.finalize]) s = .next (finish opcFinalize (absorb css.flatten s)) := by
  obtain ⟨rsp, hwrites⟩ := execAll_writes css hshort
  rw [execAll_append _ hwrites, execAll_singleton, exec_rsp, written_of_accepting hf]
  exact execFinalize_of_accepting (s := absorb css.flatten s) hf

/-- RESET, WRITEs and FINALIZE answer with the hash of all that was written, however it was split (R80 to R82, R86). -/
theorem execAll_message (css : List (List Byte)) {s : State} (hf : s.fsm ≠ .fault) :
    ∃ t, execAll (.reset :: (css.map .write ++ [.finalize])) s = .next t ∧ t.fsm = .finalized ∧
      t.rsp = 0x03000000 :: stateWords (messageHash css.flatten) := by
  refine ⟨finish opcFinalize (absorb css.flatten (respond opcReset .ok [] (emptied s))), ?_, finish_fsm .., ?_⟩
  · rw [execAll_cons_of_next (i := .reset) _ (execReset_of_not_fault hf)]
    exact execAll_writes_finalize css rfl (Nat.zero_lt_succ 63)
  · rw [finish_rsp, absorb_v, absorb_buf, absorb_len, compressAll_pad_absorbed, statusWord_finalize_ok, messageHash,
      countBits_eq_ofNat]
    simp [emptied]

/-- Settles O55, by `execAll_message`; the blocks are those of the padded message, whose last eight bytes hold the bit length
because it is below 2^64. That the tail stands once is log entry 18. -/
theorem digestOfMessage : Obligations.DigestOfMessage := by
  intro s css hf hshort
  obtain ⟨t, ht, hfsm, hrsp⟩ := execAll_message css hf
  obtain ⟨blocks, hblocks, hpad, hv⟩ :=
    compressAll_pad_blocks Config.iv css.flatten (BitVec.ofNat 64 (8 * css.flatten.length))
  have hhash : blocks.foldl cf Config.iv = messageHash css.flatten := hv.symm
  obtain ⟨hzeros, hmod⟩ := padZeros_spec css.flatten.length
  refine ⟨t, blocks, padZeros css.flatten.length, be64bytes _, ht, hblocks, hpad, hzeros, hmod, be64bytes_length _, ?_, ?_,
    hfsm, ?_⟩
  · rw [foldl_be64bytes, BitVec.toNat_ofNat, Nat.mod_eq_of_lt (by omega)]
  · rw [hrsp, hhash]
  · rw [hhash]
    exact serialize_messageHash css.flatten

theorem responsesAll_cons_of_next {i : Instr} {s t : State} (is : List Instr) (h : exec i s = .next t) :
    responsesAll (i :: is) s = t.rsp ++ responsesAll is t := by
  rw [responsesAll, h]

/-- The last response of a list of commands is its last command's. -/
theorem responsesAll_concat (i : Instr) {is : List Instr} {s t : State} (h : execAll (is ++ [i]) s = .next t) :
    ∃ before, responsesAll (is ++ [i]) s = before ++ t.rsp := by
  induction is generalizing s with
  | nil =>
    rw [List.nil_append, execAll_singleton] at h
    exact ⟨[], (responsesAll_cons_of_next [] h).trans (List.append_nil _)⟩
  | cons j is ih =>
    obtain ⟨u, hu, -⟩ := perform_answers (.command j) s
    have hj : exec j s = .next u := hu
    obtain ⟨before, hbefore⟩ := ih ((execAll_cons_of_next _ hj).symm.trans h)
    exact ⟨u.rsp ++ before, by rw [List.cons_append, responsesAll_cons_of_next _ hj, hbefore, List.append_assoc]⟩

/-- The commands that write and finish a message have encodings when each payload fits LEN (R45). -/
theorem message_wellFormed {css : List (List Byte)} (h : ∀ c ∈ css, c.length ≤ 65535) :
    ∀ i ∈ .reset :: (css.map Instr.write ++ [.finalize]), i.wellFormed = true := by
  intro i hi
  simp only [List.mem_cons, List.mem_append, List.mem_map, List.not_mem_nil, or_false] at hi
  obtain rfl | ⟨c, hc, rfl⟩ | rfl := hi
  · rfl
  · exact decide_eq_true (h c hc)
  · rfl

/-- Hardware reset with words on offer. -/
def resetOffering (ws : List Word) : State := { State.reset with cmdIn := ws }

theorem hostAct_send_reset (ws : List Word) : hostAct (.send ws) State.reset = .next (resetOffering ws) := rfl

/-- Settles O57: the words run the commands in order (`commandStreamRunsInOrder`), whose last response is the digest
(`execAll_message`). That the host takes every response is log entry 2, the reading of R85 log entry 18. -/
theorem digestAtThePorts : Obligations.DigestAtThePorts := by
  intro css hcss _
  obtain ⟨n, t, u, hrun, -, hover, hall, -, -, -, -, hout⟩ :=
    commandStreamRunsInOrder _ (resetOffering _) rfl rfl rfl rfl (message_wellFormed hcss) rfl
  obtain ⟨u', hu', -, hrsp⟩ := execAll_message css (s := resetOffering _) nofun
  cases hall.symm.trans hu'
  obtain ⟨before, hbefore⟩ := responsesAll_concat .finalize (is := .reset :: css.map .write) hall
  refine ⟨n, t, before, stateWords (messageHash css.flatten), ?_, hover nofun, ?_, stateWords_length _,
    serialize_messageHash css.flatten⟩
  · exact (session_act_of_next _ (hostAct_send_reset _)).trans hrun
  · rw [hout, ← hrsp, ← hbefore]
    rfl

end Sys2Proof.Machine
end

section
/-! PROOF. The family of spec/60_exceptions.md: refusals and their order (R89, R91, R92, R95), the block in FAULT (R93, R94,
R117), and edges without a command word (R102, R110). -/

namespace Sys2Proof.Machine

/-! ### The cause of a refusal, in R95's order -/

/-- The decoder echoes the OPC of the command it has read (R49, R53). -/
@[simp] theorem decoded_command_opc (i : Instr) : (Decoded.command i).opc = i.opc := by
  cases i <;> rfl

/-- The first cause: in FAULT every command but a well-formed STATUS is refused (R94). -/
theorem perform_of_fault {c : Decoded} {s : State} (hf : s.fsm = .fault) (hc : c ≠ .command .status) :
    perform c s = .next (refuse c.opc .fault s) := by
  cases c with
  | command i => exact exec_of_fault i (fun hi => hc (hi ▸ rfl)) (decoded_command_opc i).symm hf
  | malformed opc =>
    obtain ⟨-, h⟩ | ⟨hnot, -⟩ := execMalformed_cases opc s
    · exact h
    · exact absurd hf hnot
  | illegal opc =>
    obtain ⟨-, h⟩ | ⟨hnot, -⟩ := execIllegal_cases opc s
    · exact h
    · exact absurd hf hnot

/-- The second cause: outside FAULT a header that is no command is refused (R91). -/
theorem perform_of_illFormed {c : Decoded} {s : State} (hf : s.fsm ≠ .fault) (hc : ∀ i, c ≠ .command i) :
    perform c s = .next (refuse c.opc .illegal s) := by
  cases c with
  | command i => exact absurd rfl (hc i)
  | malformed opc =>
    obtain ⟨hfault, -⟩ | ⟨-, h⟩ := execMalformed_cases opc s
    · exact absurd hfault hf
    · exact h
  | illegal opc =>
    obtain ⟨hfault, -⟩ | ⟨-, h⟩ := execIllegal_cases opc s
    · exact absurd hfault hf
    · exact h

/-- The third cause: a payload after finalization (R92). -/
theorem perform_of_late {c : Decoded} {s : State} (hf : s.fsm = .finalized) {bs : List Byte} (hbs : bs ≠ [])
    (hc : c = .command (.write bs) ∨ c = .command (.sum bs)) : perform c s = .next (refuse c.opc .finalized s) := by
  obtain rfl | rfl := hc
  · exact execWrite_of_finalized hf hbs
  · exact execSum_of_finalized hf hbs

/-- No cause: a command that is neither refused by FAULT nor late is answered OK (R95). -/
theorem exec_answers_ok {i : Instr} {s t : State} (hf : s.fsm = .fault → i = .status)
    (hlate : s.fsm = .finalized → i.payload = []) (h : exec i s = .next t) : t.rsp.head? = some (statusWord i.opc .ok) := by
  cases i with
  | reset =>
    obtain ⟨hfault, -⟩ | ⟨-, hnext⟩ := execReset_cases s
    · cases hf hfault
    · cases hnext.symm.trans h
      rfl
  | write bs =>
    obtain ⟨hfault, -⟩ | ⟨-, -, hnext⟩ | ⟨hfin, hbs, -⟩ | ⟨-, hnext⟩ := execWrite_cases bs s
    · cases hf hfault
    · cases hnext.symm.trans h
      rfl
    · exact absurd (hlate hfin) hbs
    · cases hnext.symm.trans h
      rfl
  | finalize =>
    obtain ⟨hfault, -⟩ | ⟨-, hnext⟩ | ⟨-, hnext⟩ := execFinalize_cases s
    · cases hf hfault
    · cases hnext.symm.trans h
      rfl
    · cases hnext.symm.trans h
      rw [finish_rsp]
      rfl
  | sum bs =>
    obtain ⟨hfault, -⟩ | ⟨-, -, hnext⟩ | ⟨hfin, hbs, -⟩ | ⟨-, hnext⟩ := execSum_cases bs s
    · cases hf hfault
    · cases hnext.symm.trans h
      rfl
    · exact absurd (hlate hfin) hbs
    · cases hnext.symm.trans h
      rw [finish_rsp]
      rfl
  | status =>
    cases h
    rfl

/-- A command is late when its payload is not empty; only WRITE and SUM have one (R92). -/
theorem exists_payload_of_ne_nil {i : Instr} (h : i.payload ≠ []) : ∃ bs, bs ≠ [] ∧ (i = .write bs ∨ i = .sum bs) := by
  cases i with
  | write bs => exact ⟨bs, h, .inl rfl⟩
  | sum bs => exact ⟨bs, h, .inr rfl⟩
  | reset | finalize | status => exact absurd rfl h

/-- Settles O45: one lemma for each link of R95's chain, each of them for whatever state the command leaves. -/
theorem refusalPriority : Obligations.RefusalPriority := by
  intro c s faulted illFormed late
  obtain ⟨t, ht, -⟩ := perform_answers c s
  refine ⟨t, ht, fun hfaulted => ?_, fun hnot hill => ?_, fun _ _ hlate => ?_, fun hnot hwell hnotLate => ?_⟩
  · obtain ⟨hf, hc⟩ := hfaulted
    cases (perform_of_fault hf hc).symm.trans ht
    rw [refuse_eq]
    rfl
  · have hf : s.fsm ≠ .fault := fun hf => hnot ⟨hf, hill .status⟩
    cases (perform_of_illFormed hf hill).symm.trans ht
    rw [refuse_eq]
    rfl
  · obtain ⟨hf, bs, hbs, hc⟩ := hlate
    cases (perform_of_late hf hbs hc).symm.trans ht
    rw [refuse_eq]
    rfl
  · obtain ⟨i, hi⟩ := not_forall.1 hwell
    obtain rfl := not_not.1 hi
    have hf : s.fsm = .fault → i = .status := by
      intro hf
      by_contra hstatus
      exact hnot ⟨hf, by simpa using hstatus⟩
    have hpayload : s.fsm = .finalized → i.payload = [] := by
      intro hfin
      by_contra hne
      obtain ⟨bs, hbs, hi⟩ := exists_payload_of_ne_nil hne
      exact hnotLate ⟨hfin, bs, hbs, hi.imp (congrArg _) (congrArg _)⟩
    rw [exec_answers_ok hf hpayload ht, statusWord_eq, decoded_command_opc]
    rfl

/-- Settles O44, by the lemmas on WRITE and SUM with payload in FINALIZED. -/
theorem writeAfterFinalizeRefused : Obligations.WriteAfterFinalizeRefused := fun _ _ hf hpos =>
  have hbs := List.ne_nil_of_length_pos hpos
  ⟨execWrite_of_finalized hf hbs, execSum_of_finalized hf hbs⟩

/-! ### A refused command (R89) -/

/-- A command changes the response port alone, or it is answered OK. -/
theorem CommandEffect.answer_or_ok {c : Decoded} {s t : State} (h : CommandEffect c s t) :
    t = { s with rsp := t.rsp } ∨ ∃ opc, t.rsp.head? = some (statusWord opc .ok) := by
  cases h with
  | answer => exact .inl rfl
  | reset => exact .inr ⟨opcReset, rfl⟩
  | write => exact .inr ⟨opcWrite, rfl⟩
  | finalize => exact .inr ⟨opcFinalize, by rw [finish_rsp]; rfl⟩
  | sum => exact .inr ⟨opcSum, by rw [finish_rsp]; rfl⟩

/-- A response has data words only with the code OK (R51). -/
theorem ResponseData.nil_of_not_ok {s t : State} {c : Decoded} {rc : ResponseCode} {ds : List Word}
    (h : ResponseData s t c rc ds) (hrc : rc ≠ .ok) : ds = [] := by
  cases h with
  | refused => rfl
  | reset | write | finalize | sum | status => exact absurd rfl hrc

/-- Settles O47: the data words by `ResponseData`, the state by `CommandEffect`. The exception of R89 does not arise, since no
effect of a command takes the padding fault. -/
theorem refusedCommandChangesNothing : Obligations.RefusedCommandChangesNothing := by
  intro c s t h hcode
  obtain ⟨u, rc, ds, hu, hrsp, hdata⟩ := perform_response c s
  cases hu.symm.trans h
  constructor
  · have hrc : rc ≠ .ok := by
      rw [Ne, ← codeOf_eq_zero, ← statusWord_code c.opc rc]
      exact hcode _ (by rw [hrsp, List.head?_cons])
    rw [hrsp, hdata.nil_of_not_ok hrc, List.length_singleton]
  · obtain hsame | ⟨opc, hok⟩ := (perform_effect h).answer_or_ok
    · exact hsame
    · exact absurd (statusWord_code opc .ok) (hcode _ hok)

/-! ### FAULT (R93, R94) -/

/-- No step enters FAULT (R93). -/
theorem step_keeps_notFault {s t : State} (hs : s.fsm ≠ .fault) (h : step s = .next t) : t.fsm ≠ .fault := by
  obtain ⟨-, rfl⟩ | ⟨-, hsame⟩ | ⟨c, ws, -, heffect⟩ := step_effect h
  · simp
  · exact hsame.fsm ▸ hs
  · exact heffect.notFault hs

/-- Settles O6: `fault()` by its definition, `finish` by the length of the padding, the steps by `step_keeps_notFault`. -/
theorem faultNeverEntered : Obligations.FaultNeverEntered := by
  refine ⟨fun opc s => ?_, fun opc s => ⟨pad_length_mod s.buf s.len, finish_fsm opc s⟩, fun s t => step_keeps_notFault⟩
  rw [takeFault, refuse_eq]
  rfl

/-- In FAULT no command changes V, L, BUF or FSM (R94). -/
theorem CommandEffect.sameMessage_of_fault {c : Decoded} {s t : State} (h : CommandEffect c s t) (hf : s.fsm = .fault) :
    SameMessage s t := by
  cases h with
  | answer => exact ⟨rfl, rfl, rfl, rfl⟩
  | reset _ hnot => exact absurd hf hnot
  | write _ _ hacc | finalize _ hacc | sum _ _ hacc => simp [hf] at hacc

/-- In FAULT no step but hardware reset changes V, L, BUF or FSM (R94). -/
theorem step_sameMessage_of_fault {s t : State} (hf : s.fsm = .fault) (hrst : s.rstN = true) (h : step s = .next t) :
    SameMessage s t := by
  obtain ⟨hreset, -⟩ | ⟨-, hsame⟩ | ⟨c, ws, -, heffect⟩ := step_effect h
  · simp [hrst] at hreset
  · exact hsame
  · obtain ⟨hv, hlen, hbuf, hfsm⟩ := heffect.sameMessage_of_fault hf
    exact ⟨hv, hlen, hbuf, hfsm⟩

/-- In FAULT a response tells the number of buffered bytes at most (R20, R94). -/
theorem perform_rsp_of_fault {c : Decoded} {s s' t t' : State} (hf : s.fsm = .fault) (hf' : s'.fsm = .fault)
    (hbuf : s.buf.length = s'.buf.length) (h : perform c s = .next t) (h' : perform c s' = .next t') : t.rsp = t'.rsp := by
  by_cases hc : c = .command .status
  · subst hc
    cases h
    cases h'
    rw [respond_rsp, respond_rsp, statusRegister_congr (hf.trans hf'.symm) hbuf]
  · cases (perform_of_fault hf hc).symm.trans h
    cases (perform_of_fault hf' hc).symm.trans h'
    rfl

/-- Settles O7: commands by `perform_of_fault`, steps by `step_sameMessage_of_fault` and the reset edge, responses by
`perform_rsp_of_fault`. -/
theorem faultIsSticky : Obligations.FaultIsSticky := by
  refine ⟨fun s c hf hc => ?_, fun s t hf hrst h => ?_, fun s t _ hrst h => ?_, fun s s' t t' c => perform_rsp_of_fault⟩
  · rw [perform_of_fault hf hc, refuse_eq]
    rfl
  · obtain ⟨hv, hlen, hbuf, hfsm⟩ := step_sameMessage_of_fault hf hrst h
    exact ⟨hv.symm, hlen.symm, hbuf.symm, hfsm ▸ hf⟩
  · cases (step_of_rstN_false hrst).symm.trans h
    rfl

/-! ### Runs in FAULT and outside it (R117) -/

/-- A run that reaches a state gets past its first event. -/
theorem session_cons_next {e : HostEvent} {es : List HostEvent} {s t : State} (h : session (e :: es) s = .next t) :
    ∃ u, session [e] s = .next u ∧ session es u = .next t := by
  cases e with
  | act a =>
    cases ha : hostAct a s with
    | next u => exact ⟨u, session_act_of_next [] ha, session_act_of_next es ha ▸ h⟩
    | fault r => simp [session, ha] at h
    | refused r => simp [session, ha] at h
  | tick =>
    cases hu : step s with
    | next u => exact ⟨u, session_tick_of_next [] hu, session_tick_of_next es hu ▸ h⟩
    | fault r => simp [session, hu] at h
    | refused r => simp [session, hu] at h

/-- A run of one act is the act. -/
theorem session_one_act (a : HostAct) (s : State) : session [.act a] s = hostAct a s := by
  rw [session]
  cases hostAct a s <;> rfl

/-- rst_n is the host's: no step moves it (R103). -/
theorem step_rstN {s t : State} (h : step s = .next t) : t.rstN = s.rstN := by
  obtain ⟨-, rfl⟩ | ⟨-, w, ws, -, -, rfl⟩ | ⟨-, -, -, -, rfl⟩ | ⟨-, -, w, ws, d, -, -, rfl⟩ |
    ⟨-, -, w, ws, c, -, -, hperform⟩ := step_cases h
  · rfl
  · rfl
  · rfl
  · rfl
  · obtain ⟨-, hrst, -⟩ := (perform_effect hperform).frame
    exact hrst

/-- rst_n stays at 1 until the host drives it to 0. -/
theorem hostAct_keeps_rstN {a : HostAct} {s t : State} (ha : a ≠ .driveReset false) (hrst : s.rstN = true)
    (h : hostAct a s = .next t) : t.rstN = true := by
  cases a with
  | driveReset b =>
    cases h
    cases b with
    | false => exact absurd rfl ha
    | true => rfl
  | driveReady b =>
    cases h
    exact hrst
  | send ws =>
    cases h
    exact hrst
  | change ws =>
    simp only [hostAct] at h
    split at h
    · cases h
      exact hrst
    · split at h
      · cases h
        exact hrst
      · cases h

theorem hostAct_fsm {a : HostAct} {s t : State} (h : hostAct a s = .next t) : t.fsm = s.fsm := by
  obtain ⟨rstN, rspReady, cmdIn, rfl⟩ := hostAct_pins h
  rfl

/-- One event of a run that does not drive rst_n to 0 keeps the block in FAULT and out of reset. -/
theorem event_keeps_fault {e : HostEvent} {s u : State} (he : e ≠ .act (.driveReset false)) (hf : s.fsm = .fault)
    (hrst : s.rstN = true) (h : session [e] s = .next u) : u.fsm = .fault ∧ u.rstN = true := by
  cases e with
  | act a =>
    rw [session_one_act] at h
    exact ⟨(hostAct_fsm h).trans hf, hostAct_keeps_rstN (fun ha => he (ha ▸ rfl)) hrst h⟩
  | tick =>
    have hstep : step s = .next u := (session_one_tick s).symm.trans h
    exact ⟨step_keeps_fault hrst hf hstep, (step_rstN hstep).trans hrst⟩

/-- A run in which the host never drives rst_n to 0 stays in FAULT (R94). -/
theorem session_keeps_fault {es : List HostEvent} {s t : State} (hf : s.fsm = .fault) (hrst : s.rstN = true)
    (hes : ∀ e ∈ es, e ≠ .act (.driveReset false)) (h : session es s = .next t) : t.fsm = .fault := by
  induction es generalizing s with
  | nil =>
    cases h
    exact hf
  | cons e es ih =>
    obtain ⟨he, hrest⟩ := List.forall_mem_cons.1 hes
    obtain ⟨u, hu, hrun⟩ := session_cons_next h
    obtain ⟨huf, hurst⟩ := event_keeps_fault he hf hrst hu
    exact ih huf hurst hrest hrun

/-- No run enters FAULT (R93). -/
theorem session_keeps_notFault {es : List HostEvent} {s t : State} (hs : s.fsm ≠ .fault) (h : session es s = .next t) :
    t.fsm ≠ .fault :=
  session_keeps (P := fun s => s.fsm ≠ .fault) (fun _ _ _ hs ha => hostAct_fsm ha ▸ hs) (fun _ _ => step_keeps_notFault)
    hs h

/-- A run in FAULT is not at a good end (R117). -/
theorem not_runOver_of_fault {s : State} (hf : s.fsm = .fault) : ¬s.RunOver :=
  fun ⟨_, hnot⟩ => hnot hf

/-- Settles O60, by `session_keeps_fault` and `session_keeps_notFault`. What a hardware reset inside a run does to it is log
entry 19 and not needed. -/
theorem faultIsNoGoodEnd : Obligations.FaultIsNoGoodEnd := by
  refine ⟨fun s => ?_, fun es s t hf hrst hes h => ?_, fun es s t => session_keeps_notFault⟩
  · simp only [State.RunOver, State.AllReturned, and_assoc]
  · have hfault := session_keeps_fault hf hrst hes h
    exact ⟨hfault, not_runOver_of_fault hfault⟩

/-! ### Edges without a command word (R102, R110) -/

/-- With nothing to deliver and nothing on offer an edge waits for a word. -/
theorem step_without_words {s : State} (hrst : s.rstN = true) (hrsp : s.rsp = []) (hcmd : s.cmdIn = []) :
    step s = awaitWord s := by
  simp [step, edge, hrst, hrsp, hcmd]

/-- Settles O15, by what the decoder holds: stuck inside a command (log entry 4), idle between commands (log entry 3). -/
theorem stuckOrIdleWithoutWords : Obligations.StuckOrIdleWithoutWords := by
  refine ⟨fun s h n bs hrst hrsp hcmd hdec => ?_, fun s hrst hrsp hcmd hdec => ?_⟩
  · rw [step_without_words hrst hrsp hcmd, awaitWord, hdec]
  · rw [step_without_words hrst hrsp hcmd, awaitWord, hdec]

end Sys2Proof.Machine
end

section
/-! The output pins, the words that one edge moves, hardware reset and the port protocol (spec/70_reset_and_hazards.md
R103 to R105). -/

namespace Sys2Proof.Machine

/-! ### The output pins and the words that one edge moves (R103, R104) -/

/-- While rst_n is 0 neither port moves a word (log entry 10). -/
theorem outputPins_in_reset {s : State} (hrst : s.rstN = false) : cmdReady s = false ∧ rspValid s = false := by
  simp [cmdReady, rspValid, hrst]

/-- Out of reset, with no response pending, a command word can move and no response word is on offer. -/
theorem outputPins_without_response {s : State} (hrst : s.rstN = true) (hrsp : s.rsp = []) :
    cmdReady s = true ∧ rspValid s = false := by
  simp [cmdReady, rspValid, hrst, hrsp]

/-- A pending response holds back the next command word (R39) and offers its own first word. -/
theorem outputPins_of_response {s : State} {w : Word} {ws : List Word} (hrst : s.rstN = true) (hrsp : s.rsp = w :: ws) :
    cmdReady s = false ∧ rspValid s = true ∧ rspData s = some w := by
  simp [cmdReady, rspValid, rspData, hrst, hrsp]

/-- rsp_ready is the host's: no step moves it (R103). -/
theorem step_rspReady {s t : State} (h : step s = .next t) : t.rspReady = s.rspReady := by
  obtain ⟨-, rfl⟩ | ⟨-, w, ws, -, -, rfl⟩ | ⟨-, -, -, -, rfl⟩ | ⟨-, -, w, ws, d, -, -, rfl⟩ |
    ⟨-, -, w, ws, c, -, -, hperform⟩ := step_cases h
  · rfl
  · rfl
  · rfl
  · rfl
  · obtain ⟨-, -, hready, -⟩ := (perform_effect hperform).frame
    exact hready

/-- To the words on the ports a step is a reset edge, which moves none, a response word moving, or an edge that takes the
first command word on offer, if there is one. -/
theorem step_moves_words {s t : State} (h : step s = .next t) :
    (s.rstN = false ∧ t.cmdIn = s.cmdIn ∧ t.rspOut = s.rspOut) ∨
    (s.rstN = true ∧ ∃ w ws, s.rsp = w :: ws ∧ s.rspReady = true ∧ t = sendResponse w ws s) ∨
    (s.rstN = true ∧ s.rsp = [] ∧ t.cmdIn = s.cmdIn.tail ∧ t.rspOut = s.rspOut) := by
  obtain ⟨hrst, rfl⟩ | hresponse | ⟨hrst, hrsp, hcmd, -, rfl⟩ | ⟨hrst, hrsp, w, ws, d, hcmd, -, rfl⟩ |
    ⟨hrst, hrsp, w, ws, c, hcmd, -, hperform⟩ := step_cases h
  · exact .inl ⟨hrst, rfl, rfl⟩
  · exact .inr (.inl hresponse)
  · exact .inr (.inr ⟨hrst, hrsp, by rw [hcmd, List.tail_nil], rfl⟩)
  · exact .inr (.inr ⟨hrst, hrsp, by rw [hcmd, List.tail_cons], rfl⟩)
  · obtain ⟨-, -, -, hcmd', hout⟩ := (perform_effect hperform).frame
    exact .inr (.inr ⟨hrst, hrsp, by rw [hcmd', hcmd, List.tail_cons], hout⟩)

/-- Settles O17: `step_moves_words` names the kinds of edge, and each fixes the pins that say which words move. -/
theorem wordsMoveWhenValidAndReady : Obligations.WordsMoveWhenValidAndReady := by
  intro s t h
  refine ⟨step_rstN h, step_rspReady h, ?_⟩
  obtain ⟨hrst, hcmd, hout⟩ | ⟨hrst, w, ws, hrsp, hready, rfl⟩ | ⟨hrst, hrsp, hcmd, hout⟩ := step_moves_words h
  · simp [outputPins_in_reset hrst, hcmd, hout]
  · simp [outputPins_of_response hrst hrsp, hrsp, hready, sendResponse]
  · simp [outputPins_without_response hrst hrsp, hcmd, hout]

/-- Settles O2: the edge is `hardReset`, and the pins follow rst_n, since no response is pending after it. -/
theorem hardwareResetFromAnyState : Obligations.HardwareResetFromAnyState := by
  intro s hrst
  obtain ⟨hcmd, hrsp⟩ := outputPins_in_reset hrst
  obtain ⟨hcmd', hrsp'⟩ := outputPins_in_reset ((hardReset_rstN s).trans hrst)
  obtain ⟨hcmdAfter, hrspAfter⟩ := outputPins_without_response (s := { hardReset s with rstN := true }) rfl rfl
  exact ⟨hcmd, hrsp, _, step_of_rstN_false hrst, rfl, rfl, rfl, rfl, rfl, rfl, hcmd', hrsp', hcmdAfter, hrspAfter⟩

/-! ### The port protocol (R103) -/

/-- A host with nothing on offer may change its mind about what it sends. -/
theorem hostAct_change_of_nil {s : State} (ws : List Word) (hcmd : s.cmdIn = []) :
    hostAct (.change ws) s = .next { s with cmdIn := ws } := by
  simp [hostAct, hcmd]

/-- With a word on offer, what the host means to send may change only behind that word (U13). -/
theorem hostAct_change_of_cons {s : State} {w : Word} {rest : List Word} (ws : List Word) (hcmd : s.cmdIn = w :: rest) :
    hostAct (.change ws) s = if ws.head? = some w then .next { s with cmdIn := ws } else .refused .portProtocol := by
  simp [hostAct, hcmd]

/-- Settles O18: changing what is to be sent turns on the word on offer (log entry 5); each other act drives its own pin. -/
theorem portProtocol : Obligations.PortProtocol := by
  refine ⟨fun s w rest ws hcmd hhead => ?_, fun s w rest ws hcmd hhead => ?_, fun s ws => hostAct_change_of_nil ws,
    fun s ws b => ⟨rfl, rfl, rfl⟩⟩
  · rw [hostAct_change_of_cons ws hcmd, if_neg hhead]
  · rw [hostAct_change_of_cons ws hcmd, if_pos hhead]

end Sys2Proof.Machine
end
